-- ==== Sys2Proof/Word.lean ====
section
/-! DEFINITION. The word types of the CHIP-8 core (spec/00_scope.md R3, R5; spec/10_state.md R10, R12). -/

namespace Sys2Proof

/-- A byte of memory, a general register or a timer: 8 bits, unsigned (R3, R10, R17). -/
abbrev Byte := BitVec 8

/-- The instruction word `op`: 16 bits (R60, R61). -/
abbrev Word := BitVec 16

/-- An Address as the spec uses the word: 16 bits, unsigned (R3, R12, R13). -/
abbrev Addr := BitVec 16

/-- A register index, `x` or `y` of an instruction: 0 to 15 (R10, R63). -/
abbrev RegIdx := Fin 16

/-- The 16 key lines, bit `k` for key `k` (R20, R178). -/
abbrev KeyLines := BitVec 16

end Sys2Proof
end

