-- ==== Sys2Proof/Syntax.lean ====
section
/-! DEFINITION. The 35 instructions of the opcode map (spec/30_encoding.md R65), one constructor a row, each carrying
only the operand fields its opcode encodes (R63). -/

namespace Sys2Proof

/-- An instruction of the core: the rows of R65 in the table's order. -/
inductive Instr where
  /-- Row 1, `00E0`: `CLS` (R140). -/
  | cls
  /-- Row 2, `00EE`: `RET` (R112). -/
  | ret
  /-- Row 3, `0nnn`: `SYS nnn` (R111). -/
  | sys (nnn : BitVec 12)
  /-- Row 4, `1nnn`: `JP nnn` (R113). -/
  | jp (nnn : BitVec 12)
  /-- Row 5, `2nnn`: `CALL nnn` (R114). -/
  | call (nnn : BitVec 12)
  /-- Row 6, `3xkk`: `SE Vx,kk` (R101). -/
  | seImm (x : RegIdx) (kk : Byte)
  /-- Row 7, `4xkk`: `SNE Vx,kk` (R102). -/
  | sneImm (x : RegIdx) (kk : Byte)
  /-- Row 8, `5xy0`: `SE Vx,Vy` (R103). -/
  | seReg (x y : RegIdx)
  /-- Row 9, `6xkk`: `LD Vx,kk` (R83). -/
  | ldImm (x : RegIdx) (kk : Byte)
  /-- Row 10, `7xkk`: `ADD Vx,kk` (R84). -/
  | addImm (x : RegIdx) (kk : Byte)
  /-- Row 11, `8xy0`: `LD Vx,Vy` (R85). -/
  | ldReg (x y : RegIdx)
  /-- Row 12, `8xy1`: `OR Vx,Vy` (R86). -/
  | orReg (x y : RegIdx)
  /-- Row 13, `8xy2`: `AND Vx,Vy` (R87). -/
  | andReg (x y : RegIdx)
  /-- Row 14, `8xy3`: `XOR Vx,Vy` (R88). -/
  | xorReg (x y : RegIdx)
  /-- Row 15, `8xy4`: `ADD Vx,Vy` (R89). -/
  | addReg (x y : RegIdx)
  /-- Row 16, `8xy5`: `SUB Vx,Vy` (R90). -/
  | sub (x y : RegIdx)
  /-- Row 17, `8xy6`: `SHR Vx,Vy` (R91). -/
  | shr (x y : RegIdx)
  /-- Row 18, `8xy7`: `SUBN Vx,Vy` (R92). -/
  | subn (x y : RegIdx)
  /-- Row 19, `8xyE`: `SHL Vx,Vy` (R93). -/
  | shl (x y : RegIdx)
  /-- Row 20, `9xy0`: `SNE Vx,Vy` (R104). -/
  | sneReg (x y : RegIdx)
  /-- Row 21, `Annn`: `LD I,nnn` (R130). -/
  | ldI (nnn : BitVec 12)
  /-- Row 22, `Bnnn`: `JP V0,nnn` (R115). -/
  | jpV0 (nnn : BitVec 12)
  /-- Row 23, `Cxkk`: `RND Vx,kk` (R120). -/
  | rnd (x : RegIdx) (kk : Byte)
  /-- Row 24, `Dxyn`: `DRW Vx,Vy,n` (R141). -/
  | drw (x y : RegIdx) (n : Fin 16)
  /-- Row 25, `Ex9E`: `SKP Vx` (R150). -/
  | skp (x : RegIdx)
  /-- Row 26, `ExA1`: `SKNP Vx` (R151). -/
  | sknp (x : RegIdx)
  /-- Row 27, `Fx07`: `LD Vx,DT` (R121). -/
  | ldVxDt (x : RegIdx)
  /-- Row 28, `Fx0A`: `LD Vx,K` (R152). -/
  | ldVxK (x : RegIdx)
  /-- Row 29, `Fx15`: `LD DT,Vx` (R122). -/
  | ldDtVx (x : RegIdx)
  /-- Row 30, `Fx18`: `LD ST,Vx` (R123). -/
  | ldStVx (x : RegIdx)
  /-- Row 31, `Fx1E`: `ADD I,Vx` (R131). -/
  | addI (x : RegIdx)
  /-- Row 32, `Fx29`: `LD F,Vx` (R132). -/
  | ldF (x : RegIdx)
  /-- Row 33, `Fx33`: `LD B,Vx` (R133). -/
  | ldB (x : RegIdx)
  /-- Row 34, `Fx55`: `LD [I],Vx` (R134). -/
  | storeRegs (x : RegIdx)
  /-- Row 35, `Fx65`: `LD Vx,[I]` (R135). -/
  | loadRegs (x : RegIdx)
  deriving DecidableEq, Repr

end Sys2Proof
end

