-- ==== Sys2Proof/Decode.lean ====
section
/-! DEFINITION. The decoder, total on any bytes, and the encoder written from the same table
(spec/30_encoding.md R60 to R66; byte order spec/20_memory.md R43). -/

namespace Sys2Proof

/-- Why bytes are no instruction. -/
inductive DecodeError where
  /-- The word matches no row of the opcode map (R66). -/
  | invalidOpcode (op : Word)
  /-- Fewer than the two bytes every instruction has (R60). -/
  | truncated
  deriving DecidableEq, Repr

/-! ## Fields of the instruction word (R61, R63) -/

/-- `a = op[15:12]`, the major opcode. -/
def fieldA (op : Word) : BitVec 4 := op.extractLsb' 12 4
/-- `x = b = op[11:8]`. -/
def fieldX (op : Word) : RegIdx := (op.extractLsb' 8 4).toFin
/-- `y = c = op[7:4]`. -/
def fieldY (op : Word) : RegIdx := (op.extractLsb' 4 4).toFin
/-- `n = d = op[3:0]`, as the 4 bits of a sub-opcode. -/
def fieldD (op : Word) : BitVec 4 := op.extractLsb' 0 4
/-- `n = d = op[3:0]`, as a count. -/
def fieldN (op : Word) : Fin 16 := (op.extractLsb' 0 4).toFin
/-- `kk = op[7:0]`. -/
def fieldKk (op : Word) : Byte := op.extractLsb' 0 8
/-- `nnn = op[11:0]`. -/
def fieldNnn (op : Word) : BitVec 12 := op.extractLsb' 0 12

/-! ## Decode (R64) -/

/-- The `a = 0x0` group: the two fixed words take precedence, `SYS` is every other word. -/
def decode0 (op : Word) : Instr :=
  if op = 0x00E0#16 then .cls
  else if op = 0x00EE#16 then .ret
  else .sys (fieldNnn op)

/-- The `a = 0x8` group, selected by `d`. -/
def decode8 (op : Word) : Except DecodeError Instr :=
  let x := fieldX op
  let y := fieldY op
  match (fieldD op).toNat with
  | 0x0 => .ok (.ldReg x y)
  | 0x1 => .ok (.orReg x y)
  | 0x2 => .ok (.andReg x y)
  | 0x3 => .ok (.xorReg x y)
  | 0x4 => .ok (.addReg x y)
  | 0x5 => .ok (.sub x y)
  | 0x6 => .ok (.shr x y)
  | 0x7 => .ok (.subn x y)
  | 0xE => .ok (.shl x y)
  | _ => .error (.invalidOpcode op)

/-- The `a = 0xE` group, selected by `kk`. -/
def decodeE (op : Word) : Except DecodeError Instr :=
  if fieldKk op = 0x9E#8 then .ok (.skp (fieldX op))
  else if fieldKk op = 0xA1#8 then .ok (.sknp (fieldX op))
  else .error (.invalidOpcode op)

/-- The `a = 0xF` group, selected by `kk`. -/
def decodeF (op : Word) : Except DecodeError Instr :=
  let x := fieldX op
  match (fieldKk op).toNat with
  | 0x07 => .ok (.ldVxDt x)
  | 0x0A => .ok (.ldVxK x)
  | 0x15 => .ok (.ldDtVx x)
  | 0x18 => .ok (.ldStVx x)
  | 0x1E => .ok (.addI x)
  | 0x29 => .ok (.ldF x)
  | 0x33 => .ok (.ldB x)
  | 0x55 => .ok (.storeRegs x)
  | 0x65 => .ok (.loadRegs x)
  | _ => .error (.invalidOpcode op)

/-- `Decode(op)` of R64: it depends on the 16 bits of `op` and on nothing else. -/
def decodeWord (op : Word) : Except DecodeError Instr :=
  match (fieldA op).toNat with
  | 0x0 => .ok (decode0 op)
  | 0x1 => .ok (.jp (fieldNnn op))
  | 0x2 => .ok (.call (fieldNnn op))
  | 0x3 => .ok (.seImm (fieldX op) (fieldKk op))
  | 0x4 => .ok (.sneImm (fieldX op) (fieldKk op))
  | 0x5 => if fieldD op = 0#4 then .ok (.seReg (fieldX op) (fieldY op)) else .error (.invalidOpcode op)
  | 0x6 => .ok (.ldImm (fieldX op) (fieldKk op))
  | 0x7 => .ok (.addImm (fieldX op) (fieldKk op))
  | 0x8 => decode8 op
  | 0x9 => if fieldD op = 0#4 then .ok (.sneReg (fieldX op) (fieldY op)) else .error (.invalidOpcode op)
  | 0xA => .ok (.ldI (fieldNnn op))
  | 0xB => .ok (.jpV0 (fieldNnn op))
  | 0xC => .ok (.rnd (fieldX op) (fieldKk op))
  | 0xD => .ok (.drw (fieldX op) (fieldY op) (fieldN op))
  | 0xE => decodeE op
  | _ => decodeF op

/-- The word of two bytes as the fetch reads them: `op = { first, second }` (R43, big-endian). -/
def wordOfBytes (first second : Byte) : Word := first ++ second

/-- The decoder on any bytes: the instruction at the front and the bytes after it (R60). -/
def decode : List Byte → Except DecodeError (Instr × List Byte)
  | first :: second :: rest =>
    match decodeWord (wordOfBytes first second) with
    | .ok i => .ok (i, rest)
    | .error e => .error e
  | _ => .error .truncated

/-! ## Encode (R62, R65) -/

/-- The four bits of a register index or of the count `n`. -/
def nibble (x : Fin 16) : BitVec 4 := ⟨x⟩

/-- Format `NNN`: `annn`. -/
def encNnn (a : BitVec 4) (nnn : BitVec 12) : Word := a ++ nnn
/-- Formats `XKK` and `X`: `axkk`. -/
def encXkk (a : BitVec 4) (x : RegIdx) (kk : Byte) : Word := a ++ (nibble x ++ kk)
/-- Formats `XY` and `XYN`: `axyd`. -/
def encXyd (a : BitVec 4) (x y : RegIdx) (d : BitVec 4) : Word := a ++ (nibble x ++ (nibble y ++ d))

/-- The word of an instruction (R65). -/
def encode : Instr → Word
  | .cls => 0x00E0#16
  | .ret => 0x00EE#16
  | .sys nnn => encNnn 0x0#4 nnn
  | .jp nnn => encNnn 0x1#4 nnn
  | .call nnn => encNnn 0x2#4 nnn
  | .seImm x kk => encXkk 0x3#4 x kk
  | .sneImm x kk => encXkk 0x4#4 x kk
  | .seReg x y => encXyd 0x5#4 x y 0x0#4
  | .ldImm x kk => encXkk 0x6#4 x kk
  | .addImm x kk => encXkk 0x7#4 x kk
  | .ldReg x y => encXyd 0x8#4 x y 0x0#4
  | .orReg x y => encXyd 0x8#4 x y 0x1#4
  | .andReg x y => encXyd 0x8#4 x y 0x2#4
  | .xorReg x y => encXyd 0x8#4 x y 0x3#4
  | .addReg x y => encXyd 0x8#4 x y 0x4#4
  | .sub x y => encXyd 0x8#4 x y 0x5#4
  | .shr x y => encXyd 0x8#4 x y 0x6#4
  | .subn x y => encXyd 0x8#4 x y 0x7#4
  | .shl x y => encXyd 0x8#4 x y 0xE#4
  | .sneReg x y => encXyd 0x9#4 x y 0x0#4
  | .ldI nnn => encNnn 0xA#4 nnn
  | .jpV0 nnn => encNnn 0xB#4 nnn
  | .rnd x kk => encXkk 0xC#4 x kk
  | .drw x y n => encXyd 0xD#4 x y (nibble n)
  | .skp x => encXkk 0xE#4 x 0x9E#8
  | .sknp x => encXkk 0xE#4 x 0xA1#8
  | .ldVxDt x => encXkk 0xF#4 x 0x07#8
  | .ldVxK x => encXkk 0xF#4 x 0x0A#8
  | .ldDtVx x => encXkk 0xF#4 x 0x15#8
  | .ldStVx x => encXkk 0xF#4 x 0x18#8
  | .addI x => encXkk 0xF#4 x 0x1E#8
  | .ldF x => encXkk 0xF#4 x 0x29#8
  | .ldB x => encXkk 0xF#4 x 0x33#8
  | .storeRegs x => encXkk 0xF#4 x 0x55#8
  | .loadRegs x => encXkk 0xF#4 x 0x65#8

/-- The upper byte of a word, stored at the lower address (R43). -/
def upperByte (op : Word) : Byte := op.extractLsb' 8 8
/-- The lower byte of a word, stored at the higher address (R43). -/
def lowerByte (op : Word) : Byte := op.extractLsb' 0 8

/-- The bytes of a word in the order of their addresses (R43). -/
def bytesOfWord (op : Word) : List Byte := [upperByte op, lowerByte op]

/-- The bytes of an instruction in the order of their addresses. -/
def encodeBytes (i : Instr) : List Byte := bytesOfWord (encode i)

/-! ## The opcode table's numbering -/

/-- The instruction word of a row of spec/opcode_table.json whose bits are `w`: every row is one 16-bit word, so the bits
above `nbits` (and above 15) are not there. -/
def tableWord (nbits w : Nat) : Word := BitVec.ofNat 16 (w % 2 ^ nbits)

/-- The instruction the decoder reads from the table word `w`, none where it refuses. -/
def decodeTableWord (nbits w : Nat) : Option Instr :=
  match decode (bytesOfWord (tableWord nbits w)) with
  | .ok (i, _) => some i
  | .error _ => none

end Sys2Proof
end

