-- ==== Sys2Proof/Config.lean ====
section
/-! DEFINITION. What is fixed for the machine: the constants of R3, the parameters of R4, and the free values. -/

namespace Sys2Proof

namespace Config

/-- `MEM_SIZE`: bytes of address space (R3, R40). -/
def memSize : Nat := 4096
/-- `LOAD_BASE`: first byte of the program image, and the reset pc (R3, R12). -/
def loadBase : Nat := 0x200
/-- `IMAGE_MAX`: the largest image in bytes (R3, R192). -/
def imageMax : Nat := 3584
/-- `FONT_BASE`: first byte of the font table (R3, R41). -/
def fontBase : Nat := 0
/-- `FONT_SIZE`: bytes of the font table, 16 glyphs of 5 bytes (R3, R41). -/
def fontSize : Nat := 80
/-- `STACK_DEPTH`: usable call-stack entries (R3, R14). -/
def stackDepth : Nat := 16

/-- FREE VALUE. The random byte of cycle number `n` when the host's input list says nothing about that cycle
(R182: "a draw under no law"; log 4). It has no body, so nothing can be proved about it. -/
opaque freeRnd : Nat → BitVec 8

/-- FREE VALUE. `fault_opcode` after a fault for which no word was fetched, in cycle number `n`
(R161, spec/93_implementation_defined.md V1: "any value"; log 13). It has no body. -/
opaque freeOpcode : Nat → BitVec 16

end Config

/-- The parameters of R4, which a reset takes and which then stay fixed for the whole run (R190, R194). -/
structure Config where
  /-- `SHIFT_LEGACY` (R4, R82). -/
  shiftLegacy : Bool
  /-- `TICK_PERIOD`, in the unit of `now` (R4, R198). -/
  tickPeriod  : Nat
  /-- `FONT`: the 80 bytes of `mem[0x000..0x04F]` at reset (R4, R41). -/
  font        : Vector Byte 80
  /-- `IMAGE`: the program copied to `0x200` at reset (R4, R191). -/
  image       : List Byte
  deriving DecidableEq, Repr

end Sys2Proof
end

