-- ==== Sys2Proof/Machine/Font.lean ====
section
/-! DEFINITION. The default `FONT` (spec/20_memory.md R41), the standard CHIP-8 hexadecimal font: PRESUMED, the spec itself
supplies it from general knowledge (spec/93_implementation_defined.md G1; log 8). -/

namespace Sys2Proof.Machine

/-- The glyphs of the digits 0 to 7. -/
def fontLow : List Byte :=
  [0xF0, 0x90, 0x90, 0x90, 0xF0] ++ [0x20, 0x60, 0x20, 0x20, 0x70] ++ [0xF0, 0x10, 0xF0, 0x80, 0xF0] ++
  [0xF0, 0x10, 0xF0, 0x10, 0xF0] ++ [0x90, 0x90, 0xF0, 0x10, 0x10] ++ [0xF0, 0x80, 0xF0, 0x10, 0xF0] ++
  [0xF0, 0x80, 0xF0, 0x90, 0xF0] ++ [0xF0, 0x10, 0x20, 0x40, 0x40]

/-- The glyphs of the digits 8 to F. -/
def fontHigh : List Byte :=
  [0xF0, 0x90, 0xF0, 0x90, 0xF0] ++ [0xF0, 0x90, 0xF0, 0x10, 0xF0] ++ [0xF0, 0x90, 0xF0, 0x90, 0x90] ++
  [0xE0, 0x90, 0xE0, 0x90, 0xE0] ++ [0xF0, 0x80, 0x80, 0x80, 0xF0] ++ [0xE0, 0x90, 0x90, 0x90, 0xE0] ++
  [0xF0, 0x80, 0xF0, 0x80, 0xF0] ++ [0xF0, 0x80, 0xF0, 0x80, 0x80]

/-- The 80 font bytes, the glyph of digit `g` at `5 * g` (R41). -/
def fontTable : List Byte := fontLow ++ fontHigh

/-- The default of the parameter `FONT` (R4). -/
def defaultFont : Vector Byte 80 := ⟨fontTable.toArray, by decide⟩

end Sys2Proof.Machine
end

