-- ==== Sys2Proof/Machine/State.lean ====
section
/-! DEFINITION. The machine's state as plain data (spec/10_state.md R10 to R23), its state after reset (R29), and the
reasons a step can stop. -/

namespace Sys2Proof.Machine

/-- The framebuffer: 32 rows from the top, each of 64 pixels, bit `q` of a row being column `q` from the left (R19;
log 25 for the packing of a row). -/
abbrev Framebuffer := Vector (BitVec 64) 32

/-- The 4096-byte address space (R21, R40) in canonical form: the bytes that differ from what an unlisted address reads
as, by strictly rising address. `Memory.wf` (Machine/Ops.lean) says that form. -/
structure Memory where
  /-- The listed bytes. -/
  cells : List Host.Cell
  deriving DecidableEq, Repr

/-- The cause of a fatal fault, the content of `fault_cause` (R16, R160). Each fault is TAKEN: it is a next state. -/
inductive FaultCause where
  /-- Code 0: no fault, or a halt by `stop_req`. -/
  | none
  /-- Code 1, raised by decode (R163). -/
  | invalidOpcode
  /-- Code 2, raised by `CALL` with a full stack (R164). -/
  | stackOverflow
  /-- Code 3, raised by `RET` with an empty stack (R165). -/
  | stackUnderflow
  /-- Code 4, raised by `LD F,Vx` (R166). -/
  | invalidGlyphIndex
  /-- Code 5, raised by reset (R167). -/
  | imageTooLarge
  /-- Code 6, raised by fetch (R168). -/
  | fetchOutOfRange
  /-- Code 7, raised by the four memory instructions (R169). -/
  | memoryOutOfRange
  /-- Code 8, raised by `SKP` and `SKNP` (R170). -/
  | invalidKeyIndex
  deriving DecidableEq, Repr

/-- The inputs of one machine cycle (R23). -/
structure CycleInput where
  /-- `stop_req`: halt now (R173). -/
  stopReq : Bool
  /-- `now`: the monotonic clock's reading (R176, R196). -/
  now     : Nat
  /-- `key_in`: bit `k` is 1 while key `k` is down (R178). -/
  keyIn   : KeyLines
  /-- `rnd`: this cycle's random byte (R182). -/
  rnd     : Byte
  deriving DecidableEq, Repr

/-- The state of the core. Fields marked MODEL are the model's own, the rest are the spec's. -/
structure State where
  /-- `V[0]` to `V[15]`; `V[15]` is `VF` (R10, R11). -/
  v           : Vector Byte 16
  /-- `pc` (R12). -/
  pc          : Addr
  /-- `I`, the index register (R13). -/
  index       : Addr
  /-- `stack[0]` to `stack[15]` (R14). -/
  stack       : Vector Addr 16
  /-- `sp`: the number of call-stack entries in use, 0 to 16 (R14). -/
  sp          : Fin 17
  /-- `DT`, the delay timer (R17). -/
  dt          : Byte
  /-- `ST`, the sound timer (R17). -/
  st          : Byte
  /-- `lastUpdate`, the timestamp of the timer pair (R18). -/
  lastUpdate  : Nat
  /-- `fb` (R19). -/
  fb          : Framebuffer
  /-- `keys`, this cycle's sample (R20). -/
  keys        : KeyLines
  /-- `keys_prev`, the previous cycle's sample (R20). -/
  keysPrev    : KeyLines
  /-- `halted` (R15). -/
  halted      : Bool
  /-- `fault_cause` (R16). -/
  faultCause  : FaultCause
  /-- `fault_pc` (R16). -/
  faultPc     : Addr
  /-- `fault_opcode` (R16). -/
  faultOpcode : Word
  /-- `mem` (R21). -/
  mem         : Memory
  /-- MODEL: the parameter `SHIFT_LEGACY` of this machine (R4, R194; log 7). No step changes it. -/
  shiftLegacy : Bool
  /-- MODEL: the parameter `TICK_PERIOD` of this machine (R4, R194; log 6). No step changes it. -/
  tickPeriod  : Nat
  /-- MODEL: the host's inputs of the cycles to come, the next cycle's first (R23; log 2, log 3). -/
  inputs      : List CycleInput
  /-- MODEL: the latest sampled reading of `now` (R23, R196 (c); log 5, log 12). -/
  clock       : Nat
  /-- MODEL: this cycle's `rnd` (R182; log 4). -/
  rnd         : Byte
  /-- MODEL: how many cycles have begun; it selects a fresh free value each time (log 4). -/
  cycles      : Nat
  deriving DecidableEq, Repr

/-- Why a step would stop with no next state. It has NO constructor: every fault of this machine (R160) is taken, the
next state being halted with its fault record written (R161), so no step answers `fault` (log 1). Safe: nothing is
hidden by it. -/
inductive Fault
  deriving DecidableEq, Repr

/-- Why a step has no meaning. -/
inductive Refusal where
  /-- Raised by an arm of `exec` that has no meaning yet. Safe: nothing can be proved through it. -/
  | notModelled (mnemonic : String)
  /-- Raised by the cycle (Machine/Cycle.lean) when the host's clock goes backwards: R196 (c), "a model should refuse such
  an input trace rather than give it a meaning" (spec/93_implementation_defined.md V2; log 5). Safe. -/
  | clockWentBackwards
  deriving DecidableEq, Repr

/-- The machine right after reset (R29, R190), with the default configuration, an empty image and `now = 0`
(log 6 to log 12 for the values the source does not give). -/
def State.reset : State where
  v           := Vector.replicate 16 0#8
  pc          := 0x200#16
  index       := 0#16
  stack       := Vector.replicate 16 0#16
  sp          := 0
  dt          := 0#8
  st          := 0#8
  lastUpdate  := 0
  fb          := Vector.replicate 32 0#64
  keys        := 0#16
  keysPrev    := 0#16
  halted      := false
  faultCause  := .none
  faultPc     := 0#16
  faultOpcode := 0#16
  mem         := ⟨[]⟩
  shiftLegacy := false
  tickPeriod  := 16600
  inputs      := []
  clock       := 0
  rnd         := 0#8
  cycles      := 0

end Sys2Proof.Machine
end

