-- ==== Sys2Proof/Machine/Ops.lean ====
section
/-! DEFINITION. The named operations over memory, registers, call stack and framebuffer, and the taking of a fault. Every
meaning is written over these. -/

namespace Sys2Proof.Machine

/-! ## Memory (spec/20_memory.md R40 to R50) -/

/-- What an address that is not listed reads as: the reset contents, FONT below 0x050 and zero elsewhere
(R29, R41; log 8, log 11). -/
def Memory.background (a : Nat) : Byte :=
  if a < Config.fontSize then fontTable.getD a 0#8 else 0#8

/-- The byte listed for an address, if one is. -/
def Memory.lookup : List Host.Cell → Nat → Option Byte
  | [], _ => none
  | c :: rest, a => if c.1 = a then some c.2 else Memory.lookup rest a

/-- `MemRead(a, 1)` (R42): the byte at an address. -/
def Memory.read (m : Memory) (a : Nat) : Byte :=
  (Memory.lookup m.cells a).getD (Memory.background a)

/-- A cell put before `rest`, unless the byte is what the address reads as anyway. -/
def Memory.consCell (a : Nat) (b : Byte) (rest : List Host.Cell) : List Host.Cell :=
  if b = Memory.background a then rest else (a, b) :: rest

/-- Set the byte at an address in a list of cells, keeping the canonical form. -/
def Memory.insert : List Host.Cell → Nat → Byte → List Host.Cell
  | [], a, b => Memory.consCell a b []
  | c :: rest, a, b =>
    if a < c.1 then Memory.consCell a b (c :: rest)
    else if a = c.1 then Memory.consCell a b rest
    else c :: Memory.insert rest a b

/-- `MemWrite(a, 1, b)` (R42): set the byte at an address. -/
def Memory.write (m : Memory) (a : Nat) (b : Byte) : Memory := ⟨Memory.insert m.cells a b⟩

/-- Single-byte reads at `k` consecutive addresses, ascending (R42, R51). -/
def Memory.readList (m : Memory) (base k : Nat) : List Byte :=
  (List.range k).map fun j => m.read (base + j)

/-- Single-byte writes at consecutive addresses, ascending (R42, R51). -/
def Memory.writeList (m : Memory) (base : Nat) : List Byte → Memory
  | [] => m
  | b :: bs => (m.write base b).writeList (base + 1) bs

/-- The canonical form of memory: addresses strictly rising and below 4096, and no byte listed that its address reads as
anyway. -/
def Memory.wf (m : Memory) : Bool :=
  decide (m.cells.Pairwise fun c d => c.1 < d.1) &&
    m.cells.all fun c => decide (c.1 < Config.memSize) && c.2 != Memory.background c.1

/-- The range check of a data access of `k` bytes at `base`: `base + k - 1 <= 4095`, and no check when `k = 0`
(R49, R141). Addresses are natural numbers, never reduced (R42, R136). -/
def Memory.inRange (base k : Nat) : Bool := k = 0 || base + k - 1 ≤ 4095

/-! ## Registers -/

/-- `V[x]` (R6, R10). -/
def State.getV (s : State) (x : RegIdx) : Byte := s.v[x]

/-- `V[x] <- b` (R6, R10). -/
def State.setV (s : State) (x : RegIdx) (b : Byte) : State := { s with v := s.v.set x b }

/-- `VF`, register 15 (R11). -/
def regF : RegIdx := 15

/-- Registers `start`, `start + 1`, ... receive the bytes, ascending (R135). -/
def State.setVList (s : State) (start : Nat) : List Byte → State
  | [] => s
  | b :: bs => (s.setV (Fin.ofNat 16 start) b).setVList (start + 1) bs

/-- `V[0]` to `V[x]`, ascending (R134). -/
def State.getVList (s : State) (x : RegIdx) : List Byte := s.v.toList.take (x.val + 1)

/-- `pc <- target` (R6). -/
def State.setPc (s : State) (target : Addr) : State := { s with pc := target }

/-- `pc <- pc + 2`: the address after the current instruction (R12, R26). -/
def State.advance (s : State) : State := s.setPc (s.pc + 2#16)

/-- A skip's pc: `pc + 4` if the condition holds, else `pc + 2` (R100). -/
def State.skipIf (s : State) (cond : Bool) : State := s.setPc (if cond then s.pc + 4#16 else s.pc + 2#16)

/-- `I <- a` (R13). -/
def State.setIndex (s : State) (a : Addr) : State := { s with index := a }

/-- `DT <- b` (R17). -/
def State.setDt (s : State) (b : Byte) : State := { s with dt := b }

/-- `ST <- b` (R17). -/
def State.setSt (s : State) (b : Byte) : State := { s with st := b }

/-! ## Data accesses at `I` (R49, R136) -/

/-- Read `k` bytes at `base`, or nothing at all when the last of them lies above 4095 (R49). -/
def State.loadBytes (s : State) (base k : Nat) : Option (List Byte) :=
  if Memory.inRange base k then some (s.mem.readList base k) else none

/-- Write the bytes at `base`, or nothing at all when the last of them would lie above 4095 (R49). -/
def State.storeBytes (s : State) (base : Nat) (bytes : List Byte) : Option State :=
  if Memory.inRange base bytes.length then some { s with mem := s.mem.writeList base bytes } else none

/-! ## Fetch (R43, R50) -/

/-- The word at `pc`, high byte first; none when `pc > 4094` (R43, R50, R45: no alignment). -/
def State.fetch (s : State) : Option Word :=
  if s.pc.toNat > 4094 then none
  else some (wordOfBytes (s.mem.read s.pc.toNat) (s.mem.read (s.pc.toNat + 1)))

/-! ## Call stack (R14) -/

/-- `stack[sp] <- a`, then `sp <- sp + 1`; none when the stack is full (R14, R114). -/
def State.push (s : State) (a : Addr) : Option State :=
  if h : s.sp.val < 16 then
    some { s with stack := s.stack.set s.sp.val a h, sp := ⟨s.sp.val + 1, by omega⟩ }
  else none

/-- `sp <- sp - 1`, then the entry `stack[sp]`; none when the stack is empty. The popped slot keeps its value
(R14, R112). -/
def State.pop (s : State) : Option (Addr × State) :=
  if h : s.sp.val = 0 then none
  else
    have hs : s.sp.val - 1 < 16 := by omega
    some (s.stack[s.sp.val - 1], { s with sp := ⟨s.sp.val - 1, by omega⟩ })

/-! ## Framebuffer (R19) -/

/-- `fb[r][q]` of a framebuffer. -/
def Framebuffer.pixel (fb : Framebuffer) (r : Fin 32) (q : Fin 64) : Bool := (fb[r]).getLsbD q

/-- `fb[r][q] <- fb[r][q] xor 1`. -/
def Framebuffer.toggle (fb : Framebuffer) (r : Fin 32) (q : Fin 64) : Framebuffer :=
  fb.set r (fb[r] ^^^ BitVec.twoPow 64 q)

/-- A framebuffer with every pixel 0 (R29, R140). -/
def Framebuffer.blank : Framebuffer := Vector.replicate 32 0#64

/-- `fb[r][q]` (R6, R19). -/
def State.pixel (s : State) (r : Fin 32) (q : Fin 64) : Bool := Framebuffer.pixel s.fb r q

/-! ## Taking a fault (spec/60_exceptions.md R160 to R162) -/

/-- The code of a fault cause (R160). -/
def FaultCause.code : FaultCause → BitVec 4
  | .none => 0
  | .invalidOpcode => 1
  | .stackOverflow => 2
  | .stackUnderflow => 3
  | .invalidGlyphIndex => 4
  | .imageTooLarge => 5
  | .fetchOutOfRange => 6
  | .memoryOutOfRange => 7
  | .invalidKeyIndex => 8

/-- `raise F` (R161): halt, record the cause, the pc and the word; everything else as it was before the fetch. There is
no vector and no handler, so the pc stays (R162), and no instruction returns from it (R174). -/
def State.raise (s : State) (cause : FaultCause) (op : Word) : State :=
  { s with halted := true, faultCause := cause, faultPc := s.pc, faultOpcode := op }

/-- The outcome of an instruction that raises a fault: it abandons the instruction with none of its effects (R6, R162).
`fault_opcode` is the instruction's own word, which is the word fetched (log 14). -/
def faultOf (i : Instr) (cause : FaultCause) (s : State) : Host.Outcome State Fault Refusal :=
  .next (s.raise cause (encode i))

end Sys2Proof.Machine
end

