-- ==== Sys2Proof/Machine/Devices.lean ====
section
/-! DEFINITION. The parts of a cycle outside the instructions: the host's inputs, the timer unit and the keypad sampler
(spec/10_state.md R23, R25; spec/60_exceptions.md R176, R178). -/

namespace Sys2Proof.Machine

/-- The inputs of the cycle about to run (R23): the first of the host's list. When the list has run out the host drives
nothing new: no stop, the clock and the key lines as they last were, and a random byte nothing is known of
(log 3, log 4). -/
def State.nextInput (s : State) : CycleInput :=
  match s.inputs with
  | input :: _ => input
  | [] => { stopReq := false, now := s.clock, keyIn := s.keys, rnd := Config.freeRnd s.cycles }

/-- The cycle's inputs are taken from the list, and the cycle is counted (log 2, log 4). -/
def State.takeInput (s : State) : State := { s with inputs := s.inputs.tail, cycles := s.cycles + 1 }

/-- One decrement of a counter, with the floor at 0 (R176). -/
def countDown (b : Byte) : Byte := if b.toNat > 0 then b - 1#8 else b

/-- `TimerAdvance(now)` (R176). The gate `now - lastUpdate >= TICK_PERIOD` is written without a subtraction. -/
def State.timerAdvance (s : State) (now : Nat) : State :=
  if s.lastUpdate + s.tickPeriod ≤ now then
    { s with dt := countDown s.dt, st := countDown s.st, lastUpdate := now }
  else s

/-- The keypad sampler, step 3 of the cycle (R178). -/
def State.sampleKeys (s : State) (keyIn : KeyLines) : State := { s with keysPrev := s.keys, keys := keyIn }

/-- What of this cycle's inputs the model keeps for itself: the clock's reading and the random byte (log 4, log 5). -/
def State.latchInput (s : State) (input : CycleInput) : State := { s with clock := input.now, rnd := input.rnd }

/-- The state at step 4 of a cycle, just before the fetch: the inputs taken, the timers advanced, the keys sampled
(R25 steps 2 and 3). -/
def State.beforeFetch (s : State) : State :=
  ((s.takeInput.timerAdvance s.nextInput.now).sampleKeys s.nextInput.keyIn).latchInput s.nextInput

/-- The external stop (R173): `halted <- 1` and nothing else. -/
def State.stop (s : State) : State := { s with halted := true }

end Sys2Proof.Machine
end

