-- ==== Sys2Proof/Machine/Operands.lean ====
section
/-! DEFINITION. The operand forms: immediates, targets, addresses, digits, key indices and the sprite's pixels
(spec/30_encoding.md R63; spec/40_arith_logic.md R82; spec/44_index_memory.md; spec/45_display.md). -/

namespace Sys2Proof.Machine

/-- `zext_16(nnn)`: a 12-bit address as an Address (R63, R110). -/
def target (nnn : BitVec 12) : Addr := nnn.setWidth 16

/-- `zext_16` of a byte (R6). -/
def zext16 (b : Byte) : Addr := b.setWidth 16

/-- `nnn + V[0]`, 0x0000 to 0x10FE, no wrap (R115). -/
def targetV0 (nnn : BitVec 12) (v0 : Byte) : Addr := target nnn + zext16 v0

/-- The shifted source: `V[x]` in the modern convention, `V[y]` in the legacy one (R82). -/
def shiftSource (s : State) (x y : RegIdx) : Byte := if s.shiftLegacy then s.getV y else s.getV x

/-- The glyph address of a digit, `FONT_BASE + 5 * digit`; none when the whole 8-bit value is above 15 (R132). -/
def glyphAddress (b : Byte) : Option Addr :=
  if b.toNat > 15 then none else some (BitVec.ofNat 16 (Config.fontBase + 5 * b.toNat))

/-- The decimal digits of a byte: hundreds, tens, ones, each a whole byte (R133). -/
def bcdDigits (b : Byte) : List Byte :=
  [BitVec.ofNat 8 (b.toNat / 100), BitVec.ofNat 8 (b.toNat / 10 % 10), BitVec.ofNat 8 (b.toNat % 10)]

/-- The level of the key a register names; none when the whole 8-bit value is above 15 (R150). -/
def keyLevel (s : State) (b : Byte) : Option Bool :=
  if b.toNat > 15 then none else some (s.keys.getLsbD b.toNat)

/-- `pressed = keys and not keys_prev`: the keys that went down at this cycle's sample (R20, R178). -/
def pressed (s : State) : KeyLines := s.keys &&& ~~~s.keysPrev

/-- The lowest `k` in 0..15 with bit `k` set, none when no bit is (R152). -/
def lowestKey (p : KeyLines) : Option (Fin 16) := (List.finRange 16).find? fun k => p.getLsbD k

/-- The pixels one sprite byte toggles, left to right: for each `col` whose bit `7 - col` is 1, the pixel in row
`(vy + row) mod 32` and column `(vx + col) mod 64` (R141, R142: bit 7 is the leftmost). -/
def spriteRow (vx vy row : Nat) (byte : Byte) : List (Fin 32 × Fin 64) :=
  ((List.range 8).filter fun col => byte.getLsbD (7 - col)).map
    fun col => (Fin.ofNat 32 (vy + row), Fin.ofNat 64 (vx + col))

/-- The pixels a sprite toggles, in the loop's order: its rows top to bottom, `row` numbering the first (R141). -/
def spritePixels (vx vy row : Nat) : List Byte → List (Fin 32 × Fin 64)
  | [] => []
  | byte :: bytes => spriteRow vx vy row byte ++ spritePixels vx vy (row + 1) bytes

/-- Toggle the pixels in order. The Bool is the collision so far: it becomes true when a pixel that is set is toggled
(R141). -/
def togglePixels : List (Fin 32 × Fin 64) → Framebuffer × Bool → Framebuffer × Bool
  | [], acc => acc
  | p :: ps, (fb, collision) =>
    togglePixels ps (Framebuffer.toggle fb p.1 p.2, collision || Framebuffer.pixel fb p.1 p.2)

end Sys2Proof.Machine
end

