-- ==== Sys2Proof/Machine/Flags.lean ====
section
/-! DEFINITION. The flag computations (spec/10_state.md R11) and the order of the two writes (spec/40_arith_logic.md R81). -/

namespace Sys2Proof.Machine

/-- The value `VF` receives for a condition: exactly 0 or 1 (R11). -/
def flagByte (b : Bool) : Byte := if b then 1#8 else 0#8

/-- Carry of `ADD Vx,Vy`: the unsigned sum exceeds 255 (R89). -/
def carryFlag (u v : Byte) : Bool := decide (u.toNat + v.toNat > 255)

/-- Flag of `SUB` and `SUBN`: the minuend is strictly greater than the subtrahend (R90, R92; 90_conflicts.md C4). -/
def noBorrowFlag (minuend subtrahend : Byte) : Bool := decide (minuend.toNat > subtrahend.toNat)

/-- Flag of `SHR`: the bit shifted out, bit 0 (R91). -/
def shrFlag (src : Byte) : Bool := src.getLsbD 0

/-- Flag of `SHL`: the bit shifted out, bit 7 (R93). -/
def shlFlag (src : Byte) : Bool := src.getLsbD 7

/-- The result to `V[x]` first and the flag to `V[F]` second, so that the flag survives when `x = F` (R81). -/
def State.setResultAndFlag (s : State) (x : RegIdx) (result : Byte) (flag : Bool) : State :=
  (s.setV x result).setV regF (flagByte flag)

end Sys2Proof.Machine
end

