-- ==== Sys2Proof/Machine/Arith.lean ====
section
/-! DEFINITION. Register load, arithmetic, logic and shift instructions (spec/40_arith_logic.md R80 to R93). -/

namespace Sys2Proof.Machine

/-- `LD Vx,kk` (R83). -/
def execLdImm (x : RegIdx) (kk : Byte) (s : State) : Host.Outcome State Fault Refusal :=
  .next (s.setV x kk).advance

/-- `ADD Vx,kk` (R84): no flag. -/
def execAddImm (x : RegIdx) (kk : Byte) (s : State) : Host.Outcome State Fault Refusal :=
  .next (s.setV x (s.getV x + kk)).advance

/-- `LD Vx,Vy` (R85). -/
def execLdReg (x y : RegIdx) (s : State) : Host.Outcome State Fault Refusal :=
  .next (s.setV x (s.getV y)).advance

/-- `OR Vx,Vy` (R86): `VF` is not written. -/
def execOrReg (x y : RegIdx) (s : State) : Host.Outcome State Fault Refusal :=
  .next (s.setV x (s.getV x ||| s.getV y)).advance

/-- `AND Vx,Vy` (R87): `VF` is not written. -/
def execAndReg (x y : RegIdx) (s : State) : Host.Outcome State Fault Refusal :=
  .next (s.setV x (s.getV x &&& s.getV y)).advance

/-- `XOR Vx,Vy` (R88): `VF` is not written. -/
def execXorReg (x y : RegIdx) (s : State) : Host.Outcome State Fault Refusal :=
  .next (s.setV x (s.getV x ^^^ s.getV y)).advance

/-- `ADD Vx,Vy` (R89). -/
def execAddReg (x y : RegIdx) (s : State) : Host.Outcome State Fault Refusal :=
  let u := s.getV x
  let v := s.getV y
  .next (s.setResultAndFlag x (u + v) (carryFlag u v)).advance

/-- `SUB Vx,Vy` (R90). -/
def execSub (x y : RegIdx) (s : State) : Host.Outcome State Fault Refusal :=
  let u := s.getV x
  let v := s.getV y
  .next (s.setResultAndFlag x (u - v) (noBorrowFlag u v)).advance

/-- `SHR Vx,Vy` (R91). -/
def execShr (x y : RegIdx) (s : State) : Host.Outcome State Fault Refusal :=
  let src := shiftSource s x y
  .next (s.setResultAndFlag x (src >>> 1) (shrFlag src)).advance

/-- `SUBN Vx,Vy` (R92). -/
def execSubn (x y : RegIdx) (s : State) : Host.Outcome State Fault Refusal :=
  let u := s.getV x
  let v := s.getV y
  .next (s.setResultAndFlag x (v - u) (noBorrowFlag v u)).advance

/-- `SHL Vx,Vy` (R93). -/
def execShl (x y : RegIdx) (s : State) : Host.Outcome State Fault Refusal :=
  let src := shiftSource s x y
  .next (s.setResultAndFlag x (src <<< 1) (shlFlag src)).advance

end Sys2Proof.Machine
end

