-- ==== Sys2Proof/Machine/Control.lean ====
section
/-! DEFINITION. Jump, call, return and SYS (spec/42_jump_call_return.md R110 to R115). -/

namespace Sys2Proof.Machine

/-- `SYS nnn` (R111): a no-op that only advances the pc; `nnn` is ignored. -/
def execSys (_nnn : BitVec 12) (s : State) : Host.Outcome State Fault Refusal :=
  .next s.advance

/-- `RET` (R112). -/
def execRet (s : State) : Host.Outcome State Fault Refusal :=
  match s.pop with
  | none => faultOf .ret .stackUnderflow s
  | some (a, t) => .next (t.setPc a)

/-- `JP nnn` (R113). -/
def execJp (nnn : BitVec 12) (s : State) : Host.Outcome State Fault Refusal :=
  .next (s.setPc (target nnn))

/-- `CALL nnn` (R114). -/
def execCall (nnn : BitVec 12) (s : State) : Host.Outcome State Fault Refusal :=
  match s.push (s.pc + 2#16) with
  | none => faultOf (.call nnn) .stackOverflow s
  | some t => .next (t.setPc (target nnn))

/-- `JP V0,nnn` (R115): the register is always `V[0]`. -/
def execJpV0 (nnn : BitVec 12) (s : State) : Host.Outcome State Fault Refusal :=
  .next (s.setPc (targetV0 nnn (s.getV 0)))

end Sys2Proof.Machine
end

