-- ==== Sys2Proof/Machine/Display.lean ====
section
/-! DEFINITION. Framebuffer instructions (spec/45_display.md R140 to R142). -/

namespace Sys2Proof.Machine

/-- `CLS` (R140): `VF` is not written. -/
def execCls (s : State) : Host.Outcome State Fault Refusal :=
  .next { s with fb := Framebuffer.blank }.advance

/-- `DRW Vx,Vy,n` (R141): `VF` is written last, after `V[x]` and `V[y]` were read. -/
def execDrw (x y : RegIdx) (n : Fin 16) (s : State) : Host.Outcome State Fault Refusal :=
  match s.loadBytes s.index.toNat n.val with
  | none => faultOf (.drw x y n) .memoryOutOfRange s
  | some bytes =>
    let drawn := togglePixels (spritePixels (s.getV x).toNat (s.getV y).toNat 0 bytes) (s.fb, false)
    .next (({ s with fb := drawn.1 }).setV regF (flagByte drawn.2)).advance

end Sys2Proof.Machine
end

