-- ==== Sys2Proof/Machine/IndexMemory.lean ====
section
/-! DEFINITION. Index register, font address, BCD and register block load/store (spec/44_index_memory.md R130 to R136).
No access changes `I` (R136). -/

namespace Sys2Proof.Machine

/-- `LD I,nnn` (R130). -/
def execLdI (nnn : BitVec 12) (s : State) : Host.Outcome State Fault Refusal :=
  .next (s.setIndex (target nnn)).advance

/-- `ADD I,Vx` (R131): modulo 65536, `VF` not written. -/
def execAddI (x : RegIdx) (s : State) : Host.Outcome State Fault Refusal :=
  .next (s.setIndex (s.index + zext16 (s.getV x))).advance

/-- `LD F,Vx` (R132). -/
def execLdF (x : RegIdx) (s : State) : Host.Outcome State Fault Refusal :=
  match glyphAddress (s.getV x) with
  | none => faultOf (.ldF x) .invalidGlyphIndex s
  | some a => .next (s.setIndex a).advance

/-- `LD B,Vx` (R133). -/
def execLdB (x : RegIdx) (s : State) : Host.Outcome State Fault Refusal :=
  match s.storeBytes s.index.toNat (bcdDigits (s.getV x)) with
  | none => faultOf (.ldB x) .memoryOutOfRange s
  | some t => .next t.advance

/-- `LD [I],Vx` (R134): `x` is a count, the registers stored are `V[0]` to `V[x]`. -/
def execStoreRegs (x : RegIdx) (s : State) : Host.Outcome State Fault Refusal :=
  match s.storeBytes s.index.toNat (s.getVList x) with
  | none => faultOf (.storeRegs x) .memoryOutOfRange s
  | some t => .next t.advance

/-- `LD Vx,[I]` (R135): it writes no memory. -/
def execLoadRegs (x : RegIdx) (s : State) : Host.Outcome State Fault Refusal :=
  match s.loadBytes s.index.toNat (x.val + 1) with
  | none => faultOf (.loadRegs x) .memoryOutOfRange s
  | some bytes => .next (s.setVList 0 bytes).advance

end Sys2Proof.Machine
end

