-- ==== Sys2Proof/Machine/Input.lean ====
section
/-! DEFINITION. Keypad instructions (spec/46_input.md R150 to R152). -/

namespace Sys2Proof.Machine

/-- `SKP Vx` (R150). -/
def execSkp (x : RegIdx) (s : State) : Host.Outcome State Fault Refusal :=
  match keyLevel s (s.getV x) with
  | none => faultOf (.skp x) .invalidKeyIndex s
  | some down => .next (s.skipIf down)

/-- `SKNP Vx` (R151). -/
def execSknp (x : RegIdx) (s : State) : Host.Outcome State Fault Refusal :=
  match keyLevel s (s.getV x) with
  | none => faultOf (.sknp x) .invalidKeyIndex s
  | some down => .next (s.skipIf (!down))

/-- `LD Vx,K` (R152): a waiting cycle changes nothing and fetches the same instruction again. -/
def execLdVxK (x : RegIdx) (s : State) : Host.Outcome State Fault Refusal :=
  match lowestKey (pressed s) with
  | none => .next s
  | some k => .next (s.setV x (BitVec.ofNat 8 k.val)).advance

end Sys2Proof.Machine
end

