-- ==== Sys2Proof/Machine/RandomTimer.lean ====
section
/-! DEFINITION. Random number and timer access instructions (spec/43_random_timers.md R120 to R123). -/

namespace Sys2Proof.Machine

/-- `RND Vx,kk` (R120): this cycle's random byte and `kk`. -/
def execRnd (x : RegIdx) (kk : Byte) (s : State) : Host.Outcome State Fault Refusal :=
  .next (s.setV x (s.rnd &&& kk)).advance

/-- `LD Vx,DT` (R121). -/
def execLdVxDt (x : RegIdx) (s : State) : Host.Outcome State Fault Refusal :=
  .next (s.setV x s.dt).advance

/-- `LD DT,Vx` (R122): `lastUpdate` is not touched. -/
def execLdDtVx (x : RegIdx) (s : State) : Host.Outcome State Fault Refusal :=
  .next (s.setDt (s.getV x)).advance

/-- `LD ST,Vx` (R123). -/
def execLdStVx (x : RegIdx) (s : State) : Host.Outcome State Fault Refusal :=
  .next (s.setSt (s.getV x)).advance

end Sys2Proof.Machine
end

