-- ==== Sys2Proof/Machine/Skip.lean ====
section
/-! DEFINITION. Conditional skip instructions on registers (spec/41_skip.md R100 to R104). -/

namespace Sys2Proof.Machine

/-- `SE Vx,kk` (R101). -/
def execSeImm (x : RegIdx) (kk : Byte) (s : State) : Host.Outcome State Fault Refusal :=
  .next (s.skipIf (s.getV x == kk))

/-- `SNE Vx,kk` (R102). -/
def execSneImm (x : RegIdx) (kk : Byte) (s : State) : Host.Outcome State Fault Refusal :=
  .next (s.skipIf (s.getV x != kk))

/-- `SE Vx,Vy` (R103). -/
def execSeReg (x y : RegIdx) (s : State) : Host.Outcome State Fault Refusal :=
  .next (s.skipIf (s.getV x == s.getV y))

/-- `SNE Vx,Vy` (R104). -/
def execSneReg (x y : RegIdx) (s : State) : Host.Outcome State Fault Refusal :=
  .next (s.skipIf (s.getV x != s.getV y))

end Sys2Proof.Machine
end

