-- ==== Sys2Proof/Machine/Cycle.lean ====
section
/-! DEFINITION. The machine cycle (spec/10_state.md R25), and the placing of an instruction word where the next cycle
fetches. -/

namespace Sys2Proof.Machine

/-- Steps 4 to 7 of the cycle: range check, fetch, decode, execute. A fetch out of range has no word, so its
`fault_opcode` is a free value (R161, R168; log 13); a word in no row is recorded as it is (R163). -/
def fetchDecodeExecute (s : State) : Host.Outcome State Fault Refusal :=
  match s.fetch with
  | none => .next (s.raise .fetchOutOfRange (Config.freeOpcode s.cycles))
  | some op =>
    match decodeWord op with
    | .error _ => .next (s.raise .invalidOpcode op)
    | .ok i => exec i s

/-- `Cycle` of R25. Step 0: a halted machine runs no cycle and nothing changes. Step 1: the external stop. Between them
and step 2 the model refuses a clock that goes backwards (R196 (c); log 5). -/
def cycle (s : State) : Host.Outcome State Fault Refusal :=
  if s.halted then .next s
  else if s.nextInput.stopReq then .next s.takeInput.stop
  else if s.nextInput.now < s.clock then .refused .clockWentBackwards
  else fetchDecodeExecute s.beforeFetch

/-- The host's inputs for the next cycle let it reach its fetch: no stop and no clock going backwards. -/
def State.inputsAllowFetch (s : State) : Bool := !s.nextInput.stopReq && decide (s.clock ≤ s.nextInput.now)

/-- The state made ready for its next cycle to fetch, changing only what stands in the way: a halted machine runs, a pc
that cannot be fetched from goes to 0x200, inputs that stop the cycle are taken away (log 26). -/
def State.readyToFetch (s : State) : State :=
  { s with
    halted := false
    pc := if s.pc.toNat > 4094 then 0x200#16 else s.pc
    inputs := if s.inputsAllowFetch then s.inputs else [] }

/-- The word stored at `pc` and `pc + 1`, high byte first (R43). -/
def State.placeWord (s : State) (op : Word) : State :=
  { s with mem := s.mem.writeList s.pc.toNat (bytesOfWord op) }

end Sys2Proof.Machine
end

