-- ==== Sys2Proof/Machine/Step.lean ====
section
/-! DEFINITION. One step of the machine: one machine cycle (spec/10_state.md R25, spec/70_reset_and_hazards.md R197). -/

namespace Sys2Proof.Machine

/-- One machine cycle. -/
def step (s : State) : Host.Outcome State Fault Refusal := cycle s

/-- The state with the opcode table's word `w` stored where the next step fetches (log 26). -/
def State.withFetchWord (s : State) (nbits w : Nat) : State := s.readyToFetch.placeWord (tableWord nbits w)

end Sys2Proof.Machine
end

