-- ==== Sys2Proof/Machine/Boot.lean ====
section
/-! DEFINITION. Reset with a configuration and a clock reading (spec/70_reset_and_hazards.md R190 to R192), and the default
configuration (spec/00_scope.md R4). -/

namespace Sys2Proof.Machine

/-- The defaults of R4: modern shifts, the table of R41 as FONT, no image, and 16600 as TICK_PERIOD, which is OPEN in the
spec (log 6). -/
def defaultConfig : Config where
  shiftLegacy := false
  tickPeriod  := 16600
  font        := defaultFont
  image       := []

/-- The machine after a reset with an image that fits, before the image is copied: steps 1 to 3 and 6 of R190. Memory is
zero everywhere and then FONT at 0x000. -/
def State.bootWithoutImage (c : Config) (now : Nat) : State :=
  { State.reset with
    shiftLegacy := c.shiftLegacy
    tickPeriod  := c.tickPeriod
    lastUpdate  := now
    clock       := now
    mem         := State.reset.mem.writeList Config.fontBase c.font.toList }

/-- `Reset(cfg, now)` (R190). An image longer than 3584 bytes is not copied and the machine leaves reset halted, with
ImageTooLarge, `fault_pc = 0x0200` and an unspecified `fault_opcode` (R167, R192; log 13). -/
def State.boot (c : Config) (now : Nat) : State :=
  let s := State.bootWithoutImage c now
  if c.image.length > Config.imageMax then s.raise .imageTooLarge (Config.freeOpcode 0)
  else { s with mem := s.mem.writeList Config.loadBase c.image }

end Sys2Proof.Machine
end

