-- ==== Sys2Proof/Machine/Ports.lean ====
section
/-! DEFINITION. The outputs of the core, read-only for the host and none able to change the state (spec/10_state.md R24):
the get-pixel port, the halted flag with the fault record, and the optional trace. -/

namespace Sys2Proof.Machine

/-- `GetPixel(q, r)`: the pixel in column `q` and row `r` (spec/60_exceptions.md R179). -/
def getPixel (s : State) (q : Fin 64) (r : Fin 32) : Bool := s.pixel r q

/-- The host's view of a stop: `halted`, then `fault_cause` as its code, `fault_pc` and `fault_opcode` (R15, R16, R24). -/
def faultReport (s : State) : Bool × BitVec 4 × Addr × Word :=
  (s.halted, s.faultCause.code, s.faultPc, s.faultOpcode)

/-- The trace pair `(pc, op)` of the cycle about to run, for a cycle that reaches step 7 (R181). -/
def tracePair (s : State) : Option (Addr × Word) :=
  if s.halted || !s.inputsAllowFetch then none
  else
    match s.beforeFetch.fetch with
    | none => none
    | some op =>
      match decodeWord op with
      | .error _ => none
      | .ok _ => some (s.pc, op)

/-! ## Mnemonic text (spec/30_encoding.md R70, R72; the exact format is implementation-defined, log 22) -/

/-- A hexadecimal digit in capitals. -/
def hexDigit (d : BitVec 4) : String :=
  match d.toNat with
  | 0 => "0" | 1 => "1" | 2 => "2" | 3 => "3" | 4 => "4" | 5 => "5" | 6 => "6" | 7 => "7"
  | 8 => "8" | 9 => "9" | 10 => "A" | 11 => "B" | 12 => "C" | 13 => "D" | 14 => "E" | _ => "F"

/-- `Vx` with the hexadecimal digit of the field. -/
def regText (x : RegIdx) : String := "V" ++ hexDigit (nibble x)

/-- `0xkk`. -/
def kkText (kk : Byte) : String := "0x" ++ hexDigit (kk.extractLsb' 4 4) ++ hexDigit (kk.extractLsb' 0 4)

/-- `0xnnn`. -/
def nnnText (nnn : BitVec 12) : String :=
  "0x" ++ hexDigit (nnn.extractLsb' 8 4) ++ hexDigit (nnn.extractLsb' 4 4) ++ hexDigit (nnn.extractLsb' 0 4)

/-- A mnemonic with two operands: one space, a comma with no space (R70). -/
def twoText (op first second : String) : String := op ++ " " ++ first ++ "," ++ second

/-- The assembler text of an instruction (R65, R70). -/
def mnemonicText : Instr → String
  | .cls => "CLS"
  | .ret => "RET"
  | .sys nnn => "SYS " ++ nnnText nnn
  | .jp nnn => "JP " ++ nnnText nnn
  | .call nnn => "CALL " ++ nnnText nnn
  | .seImm x kk => twoText "SE" (regText x) (kkText kk)
  | .sneImm x kk => twoText "SNE" (regText x) (kkText kk)
  | .seReg x y => twoText "SE" (regText x) (regText y)
  | .ldImm x kk => twoText "LD" (regText x) (kkText kk)
  | .addImm x kk => twoText "ADD" (regText x) (kkText kk)
  | .ldReg x y => twoText "LD" (regText x) (regText y)
  | .orReg x y => twoText "OR" (regText x) (regText y)
  | .andReg x y => twoText "AND" (regText x) (regText y)
  | .xorReg x y => twoText "XOR" (regText x) (regText y)
  | .addReg x y => twoText "ADD" (regText x) (regText y)
  | .sub x y => twoText "SUB" (regText x) (regText y)
  | .shr x y => twoText "SHR" (regText x) (regText y)
  | .subn x y => twoText "SUBN" (regText x) (regText y)
  | .shl x y => twoText "SHL" (regText x) (regText y)
  | .sneReg x y => twoText "SNE" (regText x) (regText y)
  | .ldI nnn => twoText "LD" "I" (nnnText nnn)
  | .jpV0 nnn => twoText "JP" "V0" (nnnText nnn)
  | .rnd x kk => twoText "RND" (regText x) (kkText kk)
  | .drw x y n => twoText "DRW" (regText x) (regText y) ++ ",0x" ++ hexDigit (nibble n)
  | .skp x => "SKP " ++ regText x
  | .sknp x => "SKNP " ++ regText x
  | .ldVxDt x => twoText "LD" (regText x) "DT"
  | .ldVxK x => twoText "LD" (regText x) "K"
  | .ldDtVx x => twoText "LD" "DT" (regText x)
  | .ldStVx x => twoText "LD" "ST" (regText x)
  | .addI x => twoText "ADD" "I" (regText x)
  | .ldF x => twoText "LD" "F" (regText x)
  | .ldB x => twoText "LD" "B" (regText x)
  | .storeRegs x => twoText "LD" "[I]" (regText x)
  | .loadRegs x => twoText "LD" (regText x) "[I]"

/-- The trace output `(programCounterAtFetch, mnemonicText)` of the cycle about to run (R181, R72). -/
def traceOutput (s : State) : Option (Addr × String) :=
  match tracePair s with
  | none => none
  | some (pc, op) =>
    match decodeWord op with
    | .error _ => none
    | .ok i => some (pc, mnemonicText i)

end Sys2Proof.Machine
end

