-- ==== Sys2Proof/Safety.lean ====
section
/-! DEFINITION. What counts as a safe machine, in the terms the claims use: the invariant every reachable state meets, and
what it means that a step leaves a part of the state alone. -/

namespace Sys2Proof.Machine

/-- The invariant of the machine: what the spec says of every state that a run reaches, and the canonical form in which the
model holds memory (log 11). -/
structure State.Inv (s : State) : Prop where
  /-- Memory is in canonical form (the model's, log 11) and lists only addresses 0 to 4095 (R40). -/
  memory : s.mem.wf = true
  /-- `pc` is at most 0x10FE (R27). -/
  pcBound : s.pc.toNat ≤ 0x10FE
  /-- Every live call-stack entry was pushed as `pc + 2`, at most 4096 (R14, R27). -/
  stackBound : ∀ k : Fin 16, k.val < s.sp.val → (s.stack[k]).toNat ≤ 4096
  /-- `lastUpdate` is a reading the clock has already shown (R18, R176). -/
  lastUpdateBound : s.lastUpdate ≤ s.clock
  /-- A running machine has an empty fault record: only a fault writes it and a fault halts (R16, R161, R174; the
  spec's own decision D22, log 20). -/
  recordEmpty : s.halted = false → s.faultCause = .none ∧ s.faultPc = 0#16 ∧ s.faultOpcode = 0#16

/-- A machine that has not faulted: it runs, or it was stopped by the host (R28, R185). -/
def State.NotFaulted (s : State) : Prop := s.faultCause = .none

/-- Every byte of memory reads as before. -/
def MemorySame (s t : State) : Prop := ∀ a, t.mem.read a = s.mem.read a

/-- Nothing but the general registers and the pc differs, and every byte of memory reads as before. -/
def OnlyRegsAndPc (s t : State) : Prop := t = { s with v := t.v, pc := t.pc } ∧ MemorySame s t

/-- Nothing but the pc differs, and every byte of memory reads as before. -/
def OnlyPc (s t : State) : Prop := t = { s with pc := t.pc } ∧ MemorySame s t

/-- Nothing but `I` and the pc differs, and every byte of memory reads as before. -/
def OnlyIndexAndPc (s t : State) : Prop := t = { s with index := t.index, pc := t.pc } ∧ MemorySame s t

/-- Nothing but the call stack, `sp` and the pc differs, and every byte of memory reads as before. -/
def OnlyStackAndPc (s t : State) : Prop :=
  t = { s with stack := t.stack, sp := t.sp, pc := t.pc } ∧ MemorySame s t

/-- Nothing but memory and the pc differs, and every byte outside the `k` bytes at `base` reads as before. -/
def OnlyBytesAndPc (base k : Nat) (s t : State) : Prop :=
  t = { s with mem := t.mem, pc := t.pc } ∧ ∀ a, (a < base ∨ base + k ≤ a) → t.mem.read a = s.mem.read a

/-- Every general register but `x` is unchanged. -/
def RegsSameBut (x : RegIdx) (s t : State) : Prop := ∀ r, r ≠ x → t.getV r = s.getV r

/-- The state `t` is `s` with a fault taken: halted, the cause, the pc and the word recorded, nothing else changed
(R161). -/
def FaultTaken (s : State) (cause : FaultCause) (op : Word) (t : State) : Prop :=
  t.halted = true ∧ t.faultCause = cause ∧ t.faultPc = s.pc ∧ t.faultOpcode = op ∧
    t = { s with halted := t.halted, faultCause := t.faultCause, faultPc := t.faultPc, faultOpcode := t.faultOpcode }

/-- The cycle about to run reaches its fetch: the machine is not halted, no stop is requested, the clock has not gone
backwards (R25). -/
def State.Running (s : State) : Prop :=
  s.halted = false ∧ s.nextInput.stopReq = false ∧ s.clock ≤ s.nextInput.now

/-- The state `u` is `s` after steps 2 and 3 of a cycle with the inputs of that cycle: the timers advanced through their
one gate (R176), the keys sampled (R178), the inputs taken; nothing else changed. -/
def TimersAndKeysDone (s u : State) : Prop :=
  u = { s with
    dt := if s.lastUpdate + s.tickPeriod ≤ s.nextInput.now then BitVec.ofNat 8 (s.dt.toNat - 1) else s.dt
    st := if s.lastUpdate + s.tickPeriod ≤ s.nextInput.now then BitVec.ofNat 8 (s.st.toNat - 1) else s.st
    lastUpdate := if s.lastUpdate + s.tickPeriod ≤ s.nextInput.now then s.nextInput.now else s.lastUpdate
    keysPrev := s.keys
    keys := s.nextInput.keyIn
    clock := s.nextInput.now
    rnd := s.nextInput.rnd
    inputs := s.inputs.tail
    cycles := s.cycles + 1 }

/-- The word `pc` points at decodes to the instruction `i`: `i` is what the next cycle would execute (R25, R43). -/
def State.Fetches (s : State) (i : Instr) : Prop := ∃ op, s.fetch = some op ∧ decodeWord op = .ok i

/-- The pixel in row `r` and column `q` is one that `DRW Vx,Vy,n` toggles: some row and column offset of the sprite lands
there, wrapped, with the sprite's bit 1 (R141, R142). -/
def SpriteCovers (s : State) (x y : RegIdx) (n : Fin 16) (r : Fin 32) (q : Fin 64) : Prop :=
  ∃ row col, row < n.val ∧ col < 8 ∧ r.val = ((s.getV y).toNat + row) % 32 ∧ q.val = ((s.getV x).toNat + col) % 64 ∧
    (s.mem.read (s.index.toNat + row)).getLsbD (7 - col) = true

/-! ## Instruction words as numbers (spec/30_encoding.md R62), written apart from the encoder -/

/-- The word `annn`. -/
def wordNnn (a : Nat) (nnn : BitVec 12) : Word := BitVec.ofNat 16 (4096 * a + nnn.toNat)

/-- The word `axkk`. -/
def wordXkk (a : Nat) (x : RegIdx) (kk : Nat) : Word := BitVec.ofNat 16 (4096 * a + 256 * x.val + kk)

/-- The word `axyd`. -/
def wordXyd (a : Nat) (x y : RegIdx) (d : Nat) : Word := BitVec.ofNat 16 (4096 * a + 256 * x.val + 16 * y.val + d)

/-- The invalid words, group by group as R66 lists them. -/
def InvalidWord (w : Word) : Prop :=
  (w.toNat / 4096 = 0x5 ∧ w.toNat % 16 ≠ 0) ∨
  (w.toNat / 4096 = 0x8 ∧ w.toNat % 16 ∈ [0x8, 0x9, 0xA, 0xB, 0xC, 0xD, 0xF]) ∨
  (w.toNat / 4096 = 0x9 ∧ w.toNat % 16 ≠ 0) ∨
  (w.toNat / 4096 = 0xE ∧ w.toNat % 256 ∉ [0x9E, 0xA1]) ∨
  (w.toNat / 4096 = 0xF ∧ w.toNat % 256 ∉ [0x07, 0x0A, 0x15, 0x18, 0x1E, 0x29, 0x33, 0x55, 0x65])

end Sys2Proof.Machine
end

