-- ==== Sys2Proof/Certificates/Slice0/Obligations.lean ====
section
/-! DEFINITION. The statements for the provers. Rules are those of spec/. A statement about an instruction first says which
word it is (its encoding as a number, apart from the encoder), then that `exec` ANSWERS a next state and what that state
holds, its frame included; where the instruction faults, that it takes the fault. -/

open Sys2Proof Sys2Proof.Machine

/-! ## Encoding -/

/-- Decoding an encoded well-formed instruction gives it back, alone or in front of any bytes (R61, R63, R64, R65).
Rests on the choices of log 18. -/
def Obligations.DecodeOfEncode : Prop :=
  ∀ i : Instr, i.WellFormed →
    decodeWord (encode i) = .ok i ∧ ∀ rest, decode (encodeBytes i ++ rest) = .ok (i, rest)

/-- A word has one meaning: what decodes to an instruction is that instruction's word, and the instruction is
well-formed (R64, R65).
Rests on the choices of log 18. -/
def Obligations.EncodeOfDecode : Prop :=
  ∀ (w : Word) (i : Instr), decodeWord w = .ok i → i.WellFormed ∧ encode i = w

/-- The decoder refuses exactly the words of R66, by their own name, and never falls through (R64, R66). -/
def Obligations.InvalidWordsAreThoseOfTheTable : Prop :=
  ∀ w : Word, (InvalidWord w → decodeWord w = .error (.invalidOpcode w)) ∧
    (¬ InvalidWord w → ∃ i, decodeWord w = .ok i)

/-- Words written out from the spec's encodings decode to the instructions they stand for
(spec/95_test_vectors.md 2.8).
Rests on the choices of log 18. -/
def Obligations.SampleWordsDecode : Prop :=
  decodeWord 0x00E0#16 = .ok .cls ∧ decodeWord 0x0ABC#16 = .ok (.sys 0xABC#12) ∧
  decodeWord 0x2ABC#16 = .ok (.call 0xABC#12) ∧ decodeWord 0x3A7F#16 = .ok (.seImm 10 0x7F#8) ∧
  decodeWord 0x8AB7#16 = .ok (.subn 10 11) ∧ decodeWord 0xCA7F#16 = .ok (.rnd 10 0x7F#8) ∧
  decodeWord 0xDAB5#16 = .ok (.drw 10 11 5) ∧ decodeWord 0xEAA1#16 = .ok (.sknp 10) ∧
  decodeWord 0xFA33#16 = .ok (.ldB 10) ∧ decodeWord 0xFA65#16 = .ok (.loadRegs 10)

/-! ## Loads, arithmetic, logic, shifts -/

/-- `LD Vx,kk` (R83).
Rests on the choices of log 18. -/
def Obligations.LoadConstant : Prop :=
  ∀ (x : RegIdx) (kk : Byte) (s : State),
    decodeWord (wordXkk 6 x kk.toNat) = .ok (.ldImm x kk) ∧
    ∃ t, exec (.ldImm x kk) s = .next t ∧ t.getV x = kk ∧ RegsSameBut x s t ∧ t.pc = s.pc + 2 ∧ OnlyRegsAndPc s t

/-- `LD Vx,Vy` (R85).
Rests on the choices of log 18. -/
def Obligations.CopyRegister : Prop :=
  ∀ (x y : RegIdx) (s : State),
    decodeWord (wordXyd 8 x y 0) = .ok (.ldReg x y) ∧
    ∃ t, exec (.ldReg x y) s = .next t ∧ t.getV x = s.getV y ∧ RegsSameBut x s t ∧ t.pc = s.pc + 2 ∧ OnlyRegsAndPc s t

/-- `ADD Vx,kk`: the sum modulo 256, and no flag, not even when `x` is not `F` and the sum wraps (R84). -/
def Obligations.AddConstantSetsNoFlag : Prop :=
  ∀ (x : RegIdx) (kk : Byte) (s : State),
    decodeWord (wordXkk 7 x kk.toNat) = .ok (.addImm x kk) ∧
    ∃ t, exec (.addImm x kk) s = .next t ∧ (t.getV x).toNat = ((s.getV x).toNat + kk.toNat) % 256 ∧
      RegsSameBut x s t ∧ t.pc = s.pc + 2 ∧ OnlyRegsAndPc s t

/-- `OR`, `AND`, `XOR`: bit by bit, `VF` written only as the named destination (R86, R87, R88).
Rests on the choices of log 18 (bitwise) and log 19 (`VF` unwritten). -/
def Obligations.LogicIsBitwiseAndLeavesFlag : Prop :=
  ∀ (x y : RegIdx) (s : State),
    (decodeWord (wordXyd 8 x y 1) = .ok (.orReg x y) ∧
      ∃ t, exec (.orReg x y) s = .next t ∧
        (∀ k < 8, (t.getV x).getLsbD k = ((s.getV x).getLsbD k || (s.getV y).getLsbD k)) ∧
        RegsSameBut x s t ∧ t.pc = s.pc + 2 ∧ OnlyRegsAndPc s t) ∧
    (decodeWord (wordXyd 8 x y 2) = .ok (.andReg x y) ∧
      ∃ t, exec (.andReg x y) s = .next t ∧
        (∀ k < 8, (t.getV x).getLsbD k = ((s.getV x).getLsbD k && (s.getV y).getLsbD k)) ∧
        RegsSameBut x s t ∧ t.pc = s.pc + 2 ∧ OnlyRegsAndPc s t) ∧
    (decodeWord (wordXyd 8 x y 3) = .ok (.xorReg x y) ∧
      ∃ t, exec (.xorReg x y) s = .next t ∧
        (∀ k < 8, (t.getV x).getLsbD k = ((s.getV x).getLsbD k ^^ (s.getV y).getLsbD k)) ∧
        RegsSameBut x s t ∧ t.pc = s.pc + 2 ∧ OnlyRegsAndPc s t)

/-- `ADD Vx,Vy`: `VF` ends as the carry, also when `x = F`; otherwise `V[x]` ends as the sum modulo 256; no other register
changes (R89). -/
def Obligations.AddWithCarry : Prop :=
  ∀ (x y : RegIdx) (s : State),
    decodeWord (wordXyd 8 x y 4) = .ok (.addReg x y) ∧
    ∃ t, exec (.addReg x y) s = .next t ∧
      (t.getV 15).toNat = (if (s.getV x).toNat + (s.getV y).toNat > 255 then 1 else 0) ∧
      (x ≠ 15 → (t.getV x).toNat = ((s.getV x).toNat + (s.getV y).toNat) % 256) ∧
      (∀ r, r ≠ x → r ≠ 15 → t.getV r = s.getV r) ∧ t.pc = s.pc + 2 ∧ OnlyRegsAndPc s t

/-- `SUB` and `SUBN`: the difference modulo 256, `VF` 1 exactly when the minuend is strictly greater (R90, R92).
Rests on the choices of log 18 (the result of `SUBN`) and log 19 (the strict comparison, the flag last). -/
def Obligations.SubtractBothWays : Prop :=
  ∀ (x y : RegIdx) (s : State),
    (decodeWord (wordXyd 8 x y 5) = .ok (.sub x y) ∧
      ∃ t, exec (.sub x y) s = .next t ∧
        (t.getV 15).toNat = (if (s.getV x).toNat > (s.getV y).toNat then 1 else 0) ∧
        (x ≠ 15 → (t.getV x).toNat = ((s.getV x).toNat + 256 - (s.getV y).toNat) % 256) ∧
        (∀ r, r ≠ x → r ≠ 15 → t.getV r = s.getV r) ∧ t.pc = s.pc + 2 ∧ OnlyRegsAndPc s t) ∧
    (decodeWord (wordXyd 8 x y 7) = .ok (.subn x y) ∧
      ∃ t, exec (.subn x y) s = .next t ∧
        (t.getV 15).toNat = (if (s.getV y).toNat > (s.getV x).toNat then 1 else 0) ∧
        (x ≠ 15 → (t.getV x).toNat = ((s.getV y).toNat + 256 - (s.getV x).toNat) % 256) ∧
        (∀ r, r ≠ x → r ≠ 15 → t.getV r = s.getV r) ∧ t.pc = s.pc + 2 ∧ OnlyRegsAndPc s t)

/-- `SHR` and `SHL` in both conventions: the source is `V[x]`, or `V[y]` in the legacy convention; one place; `VF` ends as
the bit shifted out (R82, R91, R93).
Rests on the choices of log 19 (the flag last). -/
def Obligations.ShiftsByConvention : Prop :=
  ∀ (x y : RegIdx) (s : State) (src : Byte),
    src = (if s.shiftLegacy = true then s.getV y else s.getV x) →
    (decodeWord (wordXyd 8 x y 6) = .ok (.shr x y) ∧
      ∃ t, exec (.shr x y) s = .next t ∧ (t.getV 15).toNat = src.toNat % 2 ∧
        (x ≠ 15 → (t.getV x).toNat = src.toNat / 2) ∧
        (∀ r, r ≠ x → r ≠ 15 → t.getV r = s.getV r) ∧ t.pc = s.pc + 2 ∧ OnlyRegsAndPc s t) ∧
    (decodeWord (wordXyd 8 x y 14) = .ok (.shl x y) ∧
      ∃ t, exec (.shl x y) s = .next t ∧ (t.getV 15).toNat = src.toNat / 128 ∧
        (x ≠ 15 → (t.getV x).toNat = src.toNat * 2 % 256) ∧
        (∀ r, r ≠ x → r ≠ 15 → t.getV r = s.getV r) ∧ t.pc = s.pc + 2 ∧ OnlyRegsAndPc s t)

/-! ## Skips and control flow -/

/-- The four skips on registers: `pc + 4` when the condition holds, else `pc + 2`; nothing else changes
(R101, R102, R103, R104).
Rests on the choices of log 18 (the sense of each comparison). -/
def Obligations.SkipsOnRegisters : Prop :=
  (∀ (x : RegIdx) (kk : Byte) (s : State),
    (decodeWord (wordXkk 3 x kk.toNat) = .ok (.seImm x kk) ∧
      ∃ t, exec (.seImm x kk) s = .next t ∧ t.pc = (if s.getV x = kk then s.pc + 4 else s.pc + 2) ∧ OnlyPc s t) ∧
    (decodeWord (wordXkk 4 x kk.toNat) = .ok (.sneImm x kk) ∧
      ∃ t, exec (.sneImm x kk) s = .next t ∧ t.pc = (if s.getV x = kk then s.pc + 2 else s.pc + 4) ∧ OnlyPc s t)) ∧
  (∀ (x y : RegIdx) (s : State),
    (decodeWord (wordXyd 5 x y 0) = .ok (.seReg x y) ∧
      ∃ t, exec (.seReg x y) s = .next t ∧ t.pc = (if s.getV x = s.getV y then s.pc + 4 else s.pc + 2) ∧ OnlyPc s t) ∧
    (decodeWord (wordXyd 9 x y 0) = .ok (.sneReg x y) ∧
      ∃ t, exec (.sneReg x y) s = .next t ∧ t.pc = (if s.getV x = s.getV y then s.pc + 2 else s.pc + 4) ∧ OnlyPc s t))

/-- `SYS nnn` only advances the pc, for every `nnn`, and every word `0nnn` but `00E0` and `00EE` is one (R111). -/
def Obligations.SysOnlyAdvances : Prop :=
  ∀ (nnn : BitVec 12) (s : State),
    (nnn ≠ 0x0E0#12 → nnn ≠ 0x0EE#12 → decodeWord (wordNnn 0 nnn) = .ok (.sys nnn)) ∧
    ∃ t, exec (.sys nnn) s = .next t ∧ t.pc = s.pc + 2 ∧ OnlyPc s t

/-- `JP nnn` and `JP V0,nnn`: the target, not reduced and not checked (R113, R115). -/
def Obligations.JumpsSetPc : Prop :=
  ∀ (nnn : BitVec 12) (s : State),
    (decodeWord (wordNnn 1 nnn) = .ok (.jp nnn) ∧
      ∃ t, exec (.jp nnn) s = .next t ∧ t.pc.toNat = nnn.toNat ∧ OnlyPc s t) ∧
    (decodeWord (wordNnn 11 nnn) = .ok (.jpV0 nnn) ∧
      ∃ t, exec (.jpV0 nnn) s = .next t ∧ t.pc.toNat = nnn.toNat + (s.getV 0).toNat ∧ OnlyPc s t)

/-- `CALL nnn`: below capacity it pushes `pc + 2` and jumps; at capacity it takes StackOverflow and nothing is pushed
(R114, R164).
Rests on the choices of log 16 (the depth) and log 20 (the fault record). -/
def Obligations.CallPushesAndJumps : Prop :=
  ∀ (nnn : BitVec 12) (s : State),
    decodeWord (wordNnn 2 nnn) = .ok (.call nnn) ∧
    (∀ k : Fin 16, s.sp.val = k.val →
      ∃ t, exec (.call nnn) s = .next t ∧ t.stack[k] = s.pc + 2 ∧ (∀ j : Fin 16, j ≠ k → t.stack[j] = s.stack[j]) ∧
        t.sp.val = k.val + 1 ∧ t.pc.toNat = nnn.toNat ∧ OnlyStackAndPc s t) ∧
    (s.sp.val = 16 → ∃ t, exec (.call nnn) s = .next t ∧ FaultTaken s .stackOverflow (wordNnn 2 nnn) t)

/-- `RET`: above an empty stack it pops into the pc with no increment, every slot keeping its value; on an empty stack it
takes StackUnderflow (R112, R165).
Rests on the choices of log 16 (the depth) and log 20 (the fault record). -/
def Obligations.RetPopsIntoPc : Prop :=
  decodeWord 0x00EE#16 = .ok .ret ∧
  ∀ s : State,
    (∀ k : Fin 16, s.sp.val = k.val + 1 →
      ∃ t, exec .ret s = .next t ∧ t.pc = s.stack[k] ∧ t.sp.val = k.val ∧ t.stack = s.stack ∧ OnlyStackAndPc s t) ∧
    (s.sp.val = 0 → ∃ t, exec .ret s = .next t ∧ FaultTaken s .stackUnderflow 0x00EE#16 t)

/-- A call followed by a return comes back to the instruction after the call with the stack pointer as it was, and nothing
but the pc and the one dead slot the call wrote differs (R112, R114, source example S7).
Rests on the choices of log 16 (the depth). -/
def Obligations.CallThenRetComesBack : Prop :=
  ∀ (nnn : BitVec 12) (s : State), s.sp.val < 16 →
    ∃ t u, exec (.call nnn) s = .next t ∧ exec .ret t = .next u ∧ u.pc = s.pc + 2 ∧
      u = { s with pc := u.pc, stack := u.stack } ∧ ∀ j : Fin 16, j.val ≠ s.sp.val → u.stack[j] = s.stack[j]

/-! ## Random byte and timers -/

/-- `RND Vx,kk`: this cycle's random byte, whatever it is, and the mask (R120). -/
def Obligations.RandomByteMasked : Prop :=
  ∀ (x : RegIdx) (kk : Byte) (s : State),
    decodeWord (wordXkk 12 x kk.toNat) = .ok (.rnd x kk) ∧
    ∃ t, exec (.rnd x kk) s = .next t ∧
      (∀ k < 8, (t.getV x).getLsbD k = (s.rnd.getLsbD k && kk.getLsbD k)) ∧
      RegsSameBut x s t ∧ t.pc = s.pc + 2 ∧ OnlyRegsAndPc s t

/-- `LD Vx,DT`, `LD DT,Vx`, `LD ST,Vx` (R121, R122, R123).
Rests on the choices of log 18 (which `Fx` code is which). -/
def Obligations.TimerAccess : Prop :=
  ∀ (x : RegIdx) (s : State),
    (decodeWord (wordXkk 15 x 0x07) = .ok (.ldVxDt x) ∧
      ∃ t, exec (.ldVxDt x) s = .next t ∧ t.getV x = s.dt ∧ RegsSameBut x s t ∧ t.pc = s.pc + 2 ∧ OnlyRegsAndPc s t) ∧
    (decodeWord (wordXkk 15 x 0x15) = .ok (.ldDtVx x) ∧
      ∃ t, exec (.ldDtVx x) s = .next t ∧ t.dt = s.getV x ∧ t.pc = s.pc + 2 ∧
        t = { s with dt := t.dt, pc := t.pc } ∧ MemorySame s t) ∧
    (decodeWord (wordXkk 15 x 0x18) = .ok (.ldStVx x) ∧
      ∃ t, exec (.ldStVx x) s = .next t ∧ t.st = s.getV x ∧ t.pc = s.pc + 2 ∧
        t = { s with st := t.st, pc := t.pc } ∧ MemorySame s t)

/-! ## Index register and memory -/

/-- `LD I,nnn` and `ADD I,Vx`: the sum wraps at 16 bits and `VF` is not written (R130, R131).
Rests on the choices of log 18 (the meanings of `LD I` and `ADD I`) and log 19 (no flag). -/
def Obligations.IndexLoadAndAdd : Prop :=
  (∀ (nnn : BitVec 12) (s : State),
    decodeWord (wordNnn 10 nnn) = .ok (.ldI nnn) ∧
    ∃ t, exec (.ldI nnn) s = .next t ∧ t.index.toNat = nnn.toNat ∧ t.pc = s.pc + 2 ∧ OnlyIndexAndPc s t) ∧
  (∀ (x : RegIdx) (s : State),
    decodeWord (wordXkk 15 x 0x1E) = .ok (.addI x) ∧
    ∃ t, exec (.addI x) s = .next t ∧ t.index.toNat = (s.index.toNat + (s.getV x).toNat) % 65536 ∧
      t.pc = s.pc + 2 ∧ OnlyIndexAndPc s t)

/-- `LD F,Vx`: `I` becomes five times the digit; a whole byte above 15 takes InvalidGlyphIndex (R132, R166).
Rests on the choices of log 8 (the order of the glyphs), log 18 (the code) and log 20 (the fault record). -/
def Obligations.GlyphAddressOfDigit : Prop :=
  ∀ (x : RegIdx) (s : State),
    decodeWord (wordXkk 15 x 0x29) = .ok (.ldF x) ∧
    ((s.getV x).toNat ≤ 15 →
      ∃ t, exec (.ldF x) s = .next t ∧ t.index.toNat = 5 * (s.getV x).toNat ∧ t.pc = s.pc + 2 ∧ OnlyIndexAndPc s t) ∧
    (15 < (s.getV x).toNat →
      ∃ t, exec (.ldF x) s = .next t ∧ FaultTaken s .invalidGlyphIndex (wordXkk 15 x 0x29) t)

/-- `LD B,Vx`: three decimal digits at `I`, and every other byte as before; out of range it takes MemoryOutOfRange and
writes nothing (R133). The premise on memory is a clause of the invariant (InvariantKeptByStep).
Rests on the choices of log 11 (the premise on memory), log 18 (the code) and log 20 (the range fault). -/
def Obligations.StoreDecimalDigits : Prop :=
  ∀ (x : RegIdx) (s : State),
    decodeWord (wordXkk 15 x 0x33) = .ok (.ldB x) ∧
    (s.mem.wf = true → s.index.toNat ≤ 4093 →
      ∃ t, exec (.ldB x) s = .next t ∧
        (t.mem.read s.index.toNat).toNat = (s.getV x).toNat / 100 ∧
        (t.mem.read (s.index.toNat + 1)).toNat = (s.getV x).toNat / 10 % 10 ∧
        (t.mem.read (s.index.toNat + 2)).toNat = (s.getV x).toNat % 10 ∧
        t.pc = s.pc + 2 ∧ OnlyBytesAndPc s.index.toNat 3 s t) ∧
    (4093 < s.index.toNat →
      ∃ t, exec (.ldB x) s = .next t ∧ FaultTaken s .memoryOutOfRange (wordXkk 15 x 0x33) t)

/-- `LD [I],Vx`: registers 0 to `x` at `I`, `I` unchanged, every other byte as before; out of range it takes
MemoryOutOfRange and writes nothing (R134). The premise on memory is a clause of the invariant.
Rests on the choices of log 11 (the premise on memory), log 18 (the code), log 19 (`I` unchanged) and log 20 (the
range fault). -/
def Obligations.StoreRegisterBlock : Prop :=
  ∀ (x : RegIdx) (s : State),
    decodeWord (wordXkk 15 x 0x55) = .ok (.storeRegs x) ∧
    (s.mem.wf = true → s.index.toNat + x.val ≤ 4095 →
      ∃ t, exec (.storeRegs x) s = .next t ∧
        (∀ r : RegIdx, r.val ≤ x.val → t.mem.read (s.index.toNat + r.val) = s.getV r) ∧
        t.pc = s.pc + 2 ∧ OnlyBytesAndPc s.index.toNat (x.val + 1) s t) ∧
    (4095 < s.index.toNat + x.val →
      ∃ t, exec (.storeRegs x) s = .next t ∧ FaultTaken s .memoryOutOfRange (wordXkk 15 x 0x55) t)

/-- `LD Vx,[I]`: registers 0 to `x` from `I`, the registers above and memory and `I` unchanged; out of range it takes
MemoryOutOfRange and writes no register (R135).
Rests on the choices of log 18 (the code), log 19 (`I` unchanged) and log 20 (the range fault). -/
def Obligations.LoadRegisterBlock : Prop :=
  ∀ (x : RegIdx) (s : State),
    decodeWord (wordXkk 15 x 0x65) = .ok (.loadRegs x) ∧
    (s.index.toNat + x.val ≤ 4095 →
      ∃ t, exec (.loadRegs x) s = .next t ∧
        (∀ r : RegIdx, r.val ≤ x.val → t.getV r = s.mem.read (s.index.toNat + r.val)) ∧
        (∀ r : RegIdx, x.val < r.val → t.getV r = s.getV r) ∧ t.pc = s.pc + 2 ∧ OnlyRegsAndPc s t) ∧
    (4095 < s.index.toNat + x.val →
      ∃ t, exec (.loadRegs x) s = .next t ∧ FaultTaken s .memoryOutOfRange (wordXkk 15 x 0x65) t)

/-- What `LD [I],Vx` stored is what a fetch from there reads, from the very next fetch on, the lower address's byte being
the upper one (R43, R53).
Rests on the choices of log 11 (the premise on memory), log 15 (the byte order) and log 20 (a store is seen at once). -/
def Obligations.StoreIsSeenByNextFetch : Prop :=
  ∀ (x r r' : RegIdx) (s : State), s.mem.wf = true → s.index.toNat + x.val ≤ 4095 → r'.val = r.val + 1 → r'.val ≤ x.val →
    ∃ t op, exec (.storeRegs x) s = .next t ∧
      State.fetch { t with pc := BitVec.ofNat 16 (s.index.toNat + r.val) } = some op ∧
      op.toNat = 256 * (s.getV r).toNat + (s.getV r').toNat

/-! ## Display -/

/-- `CLS`: every pixel 0, `VF` not written (R140). -/
def Obligations.ClearScreen : Prop :=
  decodeWord 0x00E0#16 = .ok .cls ∧
  ∀ s : State, ∃ t, exec .cls s = .next t ∧ (∀ r q, t.pixel r q = false) ∧ t.pc = s.pc + 2 ∧
    t = { s with fb := t.fb, pc := t.pc } ∧ MemorySame s t

/-- `DRW Vx,Vy,n`: the loop over rows and columns toggles exactly the pixels the sprite covers, with wraparound, and `VF`
tells whether one of them was set; `n = 0` reads nothing and cannot fault; out of range it takes MemoryOutOfRange and
draws nothing (R141).
Rests on the choices of log 18 (the bit order), log 19 (the flag last, `n = 0`) and log 20 (the range fault). -/
def Obligations.DrawTogglesSprite : Prop :=
  ∀ (x y : RegIdx) (n : Fin 16) (s : State),
    decodeWord (wordXyd 13 x y n.val) = .ok (.drw x y n) ∧
    ((n.val = 0 ∨ s.index.toNat + n.val - 1 ≤ 4095) →
      ∃ t, exec (.drw x y n) s = .next t ∧
        (∀ r q, SpriteCovers s x y n r q → t.pixel r q = !s.pixel r q) ∧
        (∀ r q, ¬ SpriteCovers s x y n r q → t.pixel r q = s.pixel r q) ∧
        ((∃ r q, SpriteCovers s x y n r q ∧ s.pixel r q = true) → t.getV 15 = 1#8) ∧
        ((¬ ∃ r q, SpriteCovers s x y n r q ∧ s.pixel r q = true) → t.getV 15 = 0#8) ∧
        RegsSameBut 15 s t ∧ t.pc = s.pc + 2 ∧
        t = { s with fb := t.fb, v := t.v, pc := t.pc } ∧ MemorySame s t) ∧
    (n.val ≠ 0 → 4095 < s.index.toNat + n.val - 1 →
      ∃ t, exec (.drw x y n) s = .next t ∧ FaultTaken s .memoryOutOfRange (wordXyd 13 x y n.val) t)

/-- Drawing the same sprite at the same location twice restores every pixel, and the second draw reports a collision
exactly when the first one set a pixel, as on a blank screen any sprite with a bit 1 does (R141, source example S9).
Rests on the choices of log 18 (the bit order) and log 19 (the flag last, `n = 0`). -/
def Obligations.DrawTwiceRestoresScreen : Prop :=
  ∀ (x y : RegIdx) (n : Fin 16) (s t : State),
    (n.val = 0 ∨ s.index.toNat + n.val - 1 ≤ 4095) →
    exec (.drw x y n) s = .next t → t.getV x = s.getV x → t.getV y = s.getV y →
    ∃ u, exec (.drw x y n) t = .next u ∧ (∀ r q, u.pixel r q = s.pixel r q) ∧
      (u.getV 15 = 1#8 ↔ ∃ r q, SpriteCovers s x y n r q ∧ s.pixel r q = false)

/-! ## Keypad -/

/-- `SKP` and `SKNP`: the level of the key `V[x]` names; a whole byte above 15 takes InvalidKeyIndex (R150, R151, R170).
Rests on the choices of log 18 (the sense of each) and log 20 (the fault above 15). -/
def Obligations.KeySkips : Prop :=
  ∀ (x : RegIdx) (s : State),
    decodeWord (wordXkk 14 x 0x9E) = .ok (.skp x) ∧ decodeWord (wordXkk 14 x 0xA1) = .ok (.sknp x) ∧
    ((s.getV x).toNat ≤ 15 →
      (∃ t, exec (.skp x) s = .next t ∧
        t.pc = (if s.keys.getLsbD (s.getV x).toNat = true then s.pc + 4 else s.pc + 2) ∧ OnlyPc s t) ∧
      (∃ t, exec (.sknp x) s = .next t ∧
        t.pc = (if s.keys.getLsbD (s.getV x).toNat = true then s.pc + 2 else s.pc + 4) ∧ OnlyPc s t)) ∧
    (15 < (s.getV x).toNat →
      (∃ t, exec (.skp x) s = .next t ∧ FaultTaken s .invalidKeyIndex (wordXkk 14 x 0x9E) t) ∧
      (∃ t, exec (.sknp x) s = .next t ∧ FaultTaken s .invalidKeyIndex (wordXkk 14 x 0xA1) t))

/-- `LD Vx,K`: the lowest key that is down now and was up at the previous sample; while there is none, nothing changes and
the pc stays (R152).
Rests on the choices of log 17 (the press event and the lowest key) and log 18 (which `Fx` code is which). -/
def Obligations.KeyWait : Prop :=
  ∀ (x : RegIdx) (s : State),
    decodeWord (wordXkk 15 x 0x0A) = .ok (.ldVxK x) ∧
    (∀ k : Fin 16, (s.keys.getLsbD k = true ∧ s.keysPrev.getLsbD k = false) →
      (∀ j : Fin 16, j < k → s.keys.getLsbD j = false ∨ s.keysPrev.getLsbD j = true) →
      ∃ t, exec (.ldVxK x) s = .next t ∧ (t.getV x).toNat = k.val ∧ RegsSameBut x s t ∧ t.pc = s.pc + 2 ∧
        OnlyRegsAndPc s t) ∧
    ((∀ k : Fin 16, s.keys.getLsbD k = false ∨ s.keysPrev.getLsbD k = true) → exec (.ldVxK x) s = .next s)

/-- A press event lasts one cycle: a key seen pressed in one cycle is not seen pressed in the next cycle that samples
(R178).
Rests on the choices of log 2 and log 3 (the inputs in the state), log 17 (the press event) and log 20 (the place of
the sample). -/
def Obligations.PressLastsOneCycle : Prop :=
  ∀ (s t : State) (k : Fin 16), s.Running → step s = .next t → (pressed s.beforeFetch).getLsbD k = true →
    (pressed t.beforeFetch).getLsbD k = false

/-! ## The cycle -/

/-- A step runs the decoded instruction: when the cycle reaches its fetch and the word at `pc` decodes to `i`, the step is
`exec i` on the state with the timers advanced and the keys sampled (R25, R176, R178).
Rests on the choices of log 2, log 3 and log 4 (the inputs in the state), log 15 (the fetch), log 18 (the decoding)
and log 20 (the order inside a cycle). -/
def Obligations.StepRunsDecodedInstruction : Prop :=
  ∀ (s u : State) (i : Instr), s.Running → s.Fetches i → TimersAndKeysDone s u → step s = exec i u

/-- The fetch: the word at `pc`, high byte at the lower address, at any address 0 to 4094, odd or even (R43, R45, R50).
Rests on the choices of log 15 (the byte order) and log 20 (the range). -/
def Obligations.FetchIsBigEndian : Prop :=
  ∀ s : State,
    (s.pc.toNat ≤ 4094 → ∃ op, s.fetch = some op ∧
      op.toNat = 256 * (s.mem.read s.pc.toNat).toNat + (s.mem.read (s.pc.toNat + 1)).toNat) ∧
    (4094 < s.pc.toNat → s.fetch = none)

/-- A pc above 4094 takes FetchOutOfRange, after the timers and the sample; nothing is said of `fault_opcode`, which the
spec leaves open (R168).
Rests on the choices of log 2, log 3 and log 4 (the inputs in the state), log 13 (`fault_opcode`) and log 20 (the
fault). -/
def Obligations.FetchOutOfRangeTaken : Prop :=
  ∀ s u : State, s.Running → TimersAndKeysDone s u → 4094 < s.pc.toNat →
    ∃ t, step s = .next t ∧ FaultTaken u .fetchOutOfRange t.faultOpcode t

/-- A word of no row takes InvalidOpcode and is recorded (R163).
Rests on the choices of log 2, log 3 and log 4 (the inputs in the state), log 15 (the fetch) and log 20 (the fault
record). -/
def Obligations.InvalidOpcodeTaken : Prop :=
  ∀ (s u : State) (op : Word), s.Running → TimersAndKeysDone s u → s.fetch = some op → InvalidWord op →
    ∃ t, step s = .next t ∧ FaultTaken u .invalidOpcode op t

/-- The stop request halts and does nothing else: no timer advance, no key sample, no fetch, no fault record (R173). The
model's own input list and cycle count move on.
Rests on the choices of log 2, log 4 and log 27 (the model's own fields) and log 20 (a stop comes first and does
nothing else). -/
def Obligations.StopHaltsOnly : Prop :=
  ∀ s : State, s.halted = false → s.nextInput.stopReq = true →
    step s = .next { s with halted := true, inputs := s.inputs.tail, cycles := s.cycles + 1 }

/-- A halted machine runs no cycle: after any number of steps nothing has changed (R185).
Rests on the choices of log 1 (a halted step) and log 20 (nothing runs). -/
def Obligations.HaltedForEver : Prop :=
  ∀ (k : Nat) (s : State), s.halted = true → core.run k s = .next s

/-- A clock that goes backwards is refused, in a cycle that would use it, and nothing else is (R196 (c)).
Rests on the choices of log 5 (the refusal) and log 20 (a stop comes first). -/
def Obligations.OnlyBackwardClockRefused : Prop :=
  ∀ s : State,
    step s = .refused .clockWentBackwards ↔
      s.halted = false ∧ s.nextInput.stopReq = false ∧ s.nextInput.now < s.clock

/-- Every cycle whose clock has not gone backwards completes with a next state, and no step of any state ever answers a
fault or another refusal (R28, R199).
Rests on the choices of log 1 (a fault is a next state) and log 5 (the refusal). -/
def Obligations.EveryCycleCompletes : Prop :=
  ∀ s : State,
    (s.clock ≤ s.nextInput.now → ∃ t, step s = .next t) ∧
    (∀ f, step s ≠ .fault f) ∧ (∀ r, step s = .refused r → r = .clockWentBackwards)

/-! ## Faults -/

/-- An instruction that halts the machine has taken exactly one fault and has none of its other effects; one that does
not halt it leaves the fault record alone (R161, R162).
Rests on the choices of log 14 (the word recorded) and log 20 (precision). -/
def Obligations.FaultsArePrecise : Prop :=
  ∀ (i : Instr) (s t : State), s.halted = false → exec i s = .next t →
    (t.halted = true → ∃ cause, cause ≠ FaultCause.none ∧ FaultTaken s cause (encode i) t) ∧
    (t.halted = false → t.faultCause = s.faultCause ∧ t.faultPc = s.faultPc ∧ t.faultOpcode = s.faultOpcode)

/-- Which instruction faults on which operands, and with which cause: the rows of R160 for instructions, and no other
instruction faults (R160, R171).
Rests on the choices of log 16 (the depth) and log 20 (the table). -/
def Obligations.FaultsAreThoseOfTheTable : Prop :=
  ∀ (i : Instr) (s t : State), s.halted = false → exec i s = .next t →
    (t.halted = true ↔
      (∃ nnn, i = .call nnn ∧ s.sp.val = 16) ∨
      (i = .ret ∧ s.sp.val = 0) ∨
      (∃ x, (i = .ldF x ∨ i = .skp x ∨ i = .sknp x) ∧ 15 < (s.getV x).toNat) ∨
      (∃ x, i = .ldB x ∧ 4095 < s.index.toNat + 2) ∨
      (∃ x, (i = .storeRegs x ∨ i = .loadRegs x) ∧ 4095 < s.index.toNat + x.val) ∨
      (∃ x y n, i = .drw x y n ∧ n.val ≠ 0 ∧ 4095 < s.index.toNat + n.val - 1)) ∧
    (t.halted = true →
      match i with
      | .call _ => t.faultCause = .stackOverflow
      | .ret => t.faultCause = .stackUnderflow
      | .ldF _ => t.faultCause = .invalidGlyphIndex
      | .ldB _ | .storeRegs _ | .loadRegs _ | .drw _ _ _ => t.faultCause = .memoryOutOfRange
      | .skp _ | .sknp _ => t.faultCause = .invalidKeyIndex
      | _ => False)

/-- A step that halts a running machine was asked to stop, or took one fault on top of this cycle's timers and sample, with
the word fetched as its `fault_opcode` where one was fetched (R15, R161, R162).
Rests on the choices of log 2, log 3 and log 4 (the inputs in the state), log 14 (the word recorded) and log 20
(precision, the stop). -/
def Obligations.HaltedOnlyByFaultOrStop : Prop :=
  ∀ s t u : State, s.halted = false → step s = .next t → t.halted = true → TimersAndKeysDone s u →
    s.nextInput.stopReq = true ∨
      ∃ cause op, cause ≠ FaultCause.none ∧ FaultTaken u cause op t ∧ (s.pc.toNat ≤ 4094 → s.fetch = some op)

/-! ## Whole-machine rules -/

/-- How each instruction that does not fault leaves the pc (R26).
Rests on the choices of log 16 (the stack entry `RET` pops), log 17 (the press event), log 18 (the sense of the
skips) and log 20 (faults keep the pc). -/
def Obligations.PcAfterInstruction : Prop :=
  ∀ (i : Instr) (s t : State), s.halted = false → exec i s = .next t →
    (t.halted = true → t.pc = s.pc) ∧
    (t.halted = false →
      match i with
      | .jp nnn => t.pc.toNat = nnn.toNat
      | .call nnn => t.pc.toNat = nnn.toNat
      | .ret => ∃ k : Fin 16, s.sp.val = k.val + 1 ∧ t.pc = s.stack[k]
      | .jpV0 nnn => t.pc.toNat = nnn.toNat + (s.getV 0).toNat
      | .seImm x kk => t.pc = if s.getV x = kk then s.pc + 4 else s.pc + 2
      | .sneImm x kk => t.pc = if s.getV x ≠ kk then s.pc + 4 else s.pc + 2
      | .seReg x y => t.pc = if s.getV x = s.getV y then s.pc + 4 else s.pc + 2
      | .sneReg x y => t.pc = if s.getV x ≠ s.getV y then s.pc + 4 else s.pc + 2
      | .skp x => t.pc = if s.keys.getLsbD (s.getV x).toNat = true then s.pc + 4 else s.pc + 2
      | .sknp x => t.pc = if s.keys.getLsbD (s.getV x).toNat = false then s.pc + 4 else s.pc + 2
      | .ldVxK _ => t.pc = if pressed s = 0#16 then s.pc else s.pc + 2
      | _ => t.pc = s.pc + 2)

/-- Only `LD B,Vx` and `LD [I],Vx` change a byte of memory, and only in their own range (R47). The premise on memory is a
clause of the invariant.
Rests on the choices of log 11 (the premise on memory), log 15 (the fetch), log 18 (which `Fx` code is which) and log
20 (no partial store). -/
def Obligations.MemoryWritersOnly : Prop :=
  ∀ (s t : State) (a : Nat), s.mem.wf = true → step s = .next t → t.mem.read a ≠ s.mem.read a →
    (∃ x, s.Fetches (.ldB x) ∧ s.index.toNat ≤ a ∧ a < s.index.toNat + 3) ∨
    (∃ x, s.Fetches (.storeRegs x) ∧ s.index.toNat ≤ a ∧ a ≤ s.index.toNat + x.val)

/-- Only `DRW` and `CLS` change the framebuffer (R19), only `CALL` and `RET` the call stack and `sp` (R14), only `LD I`,
`ADD I` and `LD F` the index register (R13).
Rests on the choices of log 15 (the fetch), log 18 (which `Fx` code is which) and log 19 (`I` unchanged by accesses). -/
def Obligations.ScreenStackIndexWritersOnly : Prop :=
  ∀ s t : State, step s = .next t →
    (t.fb ≠ s.fb → s.Fetches .cls ∨ ∃ x y n, s.Fetches (.drw x y n)) ∧
    ((t.stack ≠ s.stack ∨ t.sp ≠ s.sp) → s.Fetches .ret ∨ ∃ nnn, s.Fetches (.call nnn)) ∧
    (t.index ≠ s.index →
      (∃ nnn, s.Fetches (.ldI nnn)) ∨ (∃ x, s.Fetches (.addI x)) ∨ ∃ x, s.Fetches (.ldF x))

/-- `VF` changes only by the six flag instructions, which leave 0 or 1 in it, or as a named destination, or as the last
register of a block load with `x = F` (R11).
Rests on the choices of log 19 (who writes `VF`). -/
def Obligations.FlagWritersOnly : Prop :=
  ∀ (i : Instr) (s t : State), exec i s = .next t → t.getV 15 ≠ s.getV 15 →
    ((∃ x y, i = .addReg x y ∨ i = .sub x y ∨ i = .shr x y ∨ i = .subn x y ∨ i = .shl x y ∨ ∃ n, i = .drw x y n) ∧
      (t.getV 15 = 0#8 ∨ t.getV 15 = 1#8)) ∨
    (∃ kk, i = .ldImm 15 kk ∨ i = .addImm 15 kk ∨ i = .rnd 15 kk) ∨
    (∃ y, i = .ldReg 15 y ∨ i = .orReg 15 y ∨ i = .andReg 15 y ∨ i = .xorReg 15 y) ∨
    i = .ldVxDt 15 ∨ i = .ldVxK 15 ∨ i = .loadRegs 15

/-- The timers change only by their own instructions and by the gated decrement: in a step that is neither, both keep
their value unless the period has elapsed, and then each goes down by one with the floor at 0 and `lastUpdate` takes the
clock; `lastUpdate` itself changes in no other way (R176, R177 (a) to (c)).
Rests on the choices of log 2 and log 3 (the inputs in the state), log 15 (the fetch) and log 18 (which `Fx` code is
which). -/
def Obligations.TimersOnlyTickOrLoad : Prop :=
  ∀ s t : State, s.Running → step s = .next t →
    (s.lastUpdate + s.tickPeriod ≤ s.nextInput.now →
      t.lastUpdate = s.nextInput.now ∧
      ((¬ ∃ x, s.Fetches (.ldDtVx x)) → t.dt.toNat = s.dt.toNat - 1) ∧
      ((¬ ∃ x, s.Fetches (.ldStVx x)) → t.st.toNat = s.st.toNat - 1)) ∧
    (s.nextInput.now < s.lastUpdate + s.tickPeriod →
      t.lastUpdate = s.lastUpdate ∧
      ((¬ ∃ x, s.Fetches (.ldDtVx x)) → t.dt = s.dt) ∧
      ((¬ ∃ x, s.Fetches (.ldStVx x)) → t.st = s.st))

/-- No step changes the parameters of the machine (R194). -/
def Obligations.ParametersNeverChange : Prop :=
  ∀ s t : State, step s = .next t → t.shiftLegacy = s.shiftLegacy ∧ t.tickPeriod = s.tickPeriod

/-- `RND` is the one instruction the random byte reaches: every other instruction does the same whatever it is
(R120, R172).
Rests on the choices of log 4 (the random byte). -/
def Obligations.RandomReachesOnlyRnd : Prop :=
  ∀ (i : Instr) (s t : State) (b : Byte), (∀ x kk, i ≠ .rnd x kk) → exec i s = .next t →
    exec i { s with rnd := b } = .next { t with rnd := b }

/-- No instruction reads `ST`: with another sound timer every instruction but `LD ST,Vx` does the same and leaves that
timer, and `LD ST,Vx` does the same altogether (R123, R180). Only `SHR` and `SHL` depend on the shift convention: with the
other one every other instruction does the same (R82). -/
def Obligations.SoundTimerAndConventionReachNothingElse : Prop :=
  (∀ (i : Instr) (s t : State) (b : Byte), (∀ x, i ≠ .ldStVx x) → exec i s = .next t →
    exec i { s with st := b } = .next { t with st := b }) ∧
  (∀ (x : RegIdx) (s t : State) (b : Byte), exec (.ldStVx x) s = .next t →
    exec (.ldStVx x) { s with st := b } = .next t) ∧
  (∀ (i : Instr) (s t : State) (c : Bool), (∀ x y, i ≠ .shr x y ∧ i ≠ .shl x y) → exec i s = .next t →
    exec i { s with shiftLegacy := c } = .next { t with shiftLegacy := c })

/-! ## Invariant, reset -/

/-- Every step keeps the invariant: memory canonical, `pc` at most 0x10FE, live stack entries at most 4096, `lastUpdate`
not ahead of the clock, the fault record empty while the machine runs (R14, R15, R16, R18, R27; R40 for memory's
addresses alone).
Rests on the choices of log 5 and log 12 (the clock), log 11 (the canonical form), log 16 (the depth) and log 20 (the
fault record). -/
def Obligations.InvariantKeptByStep : Prop :=
  ∀ s t : State, s.Inv → step s = .next t → t.Inv

/-- The state after reset meets the invariant.
Rests on the choices of log 10, log 11 and log 12 (reset values), log 16 (the depth) and log 20 (the fault record). -/
def Obligations.InvariantAtReset : Prop := State.reset.Inv

/-- Every reset, whatever its configuration and clock, leaves a state that meets the invariant (R190, R192).
Rests on the choices of log 10 and log 12 (reset values), log 11 (the canonical form), log 16 (the depth) and log 20
(the fault record). -/
def Obligations.InvariantAtBoot : Prop := ∀ (c : Config) (now : Nat), (State.boot c now).Inv

/-- What reset leaves in every register and in every byte of memory when the image fits (R29, R190, R191). The zeros are
the spec's own decisions D3, D4, D16, D18, D22 (log 10, log 11), `lastUpdate` is D20 (log 12). -/
def Obligations.ResetLoadsFontAndImage : Prop :=
  ∀ (c : Config) (now : Nat), c.image.length ≤ 3584 →
    let s := State.boot c now
    s.pc = 0x200#16 ∧ (∀ r, s.getV r = 0#8) ∧ s.index = 0#16 ∧ s.sp.val = 0 ∧ (∀ k : Fin 16, s.stack[k] = 0#16) ∧
    s.dt = 0#8 ∧ s.st = 0#8 ∧ s.lastUpdate = now ∧ (∀ r q, s.pixel r q = false) ∧ s.keys = 0#16 ∧ s.keysPrev = 0#16 ∧
    s.halted = false ∧ s.faultCause.code = 0#4 ∧ s.faultPc = 0#16 ∧ s.faultOpcode = 0#16 ∧
    s.shiftLegacy = c.shiftLegacy ∧ s.tickPeriod = c.tickPeriod ∧
    (∀ k : Fin 80, s.mem.read k.val = c.font[k]) ∧
    (∀ a, 80 ≤ a → a < 0x200 → s.mem.read a = 0#8) ∧
    (∀ j (h : j < c.image.length), s.mem.read (0x200 + j) = c.image[j]) ∧
    (∀ a, 0x200 + c.image.length ≤ a → a < 4096 → s.mem.read a = 0#8)

/-- An image that does not fit is not copied, and the machine leaves reset halted with ImageTooLarge; `fault_opcode` is
left open (R167, R192).
Rests on the choices of log 10 and log 11 (reset values), log 13 (`fault_opcode`) and log 20 (the halted machine). -/
def Obligations.OverlongImageHaltsReset : Prop :=
  ∀ (c : Config) (now : Nat), 3584 < c.image.length →
    let s := State.boot c now
    s.halted = true ∧ s.faultCause.code = 5#4 ∧ s.faultPc = 0x200#16 ∧ s.pc = 0x200#16 ∧
    (∀ a, 0x200 ≤ a → a < 4096 → s.mem.read a = 0#8) ∧
    { s with halted := false, faultCause := .none, faultPc := 0#16, faultOpcode := 0#16 } =
      State.boot { c with image := [] } now

/-- The default reset is the machine's reset state.
Rests on the choices of log 6, log 7, log 8 and log 12 (the defaults) and log 10 and log 11 (reset values). -/
def Obligations.DefaultBootIsReset : Prop := State.boot defaultConfig 0 = State.reset

/-- Equal memories are equal data: two memories in canonical form that read the same at every address are the same list.
Rests on the choices of log 11 (what an unlisted address reads as). -/
def Obligations.EqualReadsEqualMemory : Prop :=
  ∀ m m' : Memory, m.wf = true → m'.wf = true → (∀ a, m.read a = m'.read a) → m = m'

/-! ## Host interface -/

/-- From any state, the state with a table word placed where the next cycle fetches runs exactly that word's
instruction.
Rests on the choices of log 2, log 3 and log 4 (the inputs in the state), log 11 (the premise on memory), log 15 (the
byte order) and log 26 (where the word is placed). -/
def Obligations.PlacedWordRuns : Prop :=
  ∀ (s : State) (w : Nat) (i : Instr), s.mem.wf = true → decodeTableWord 16 w = some i →
    step (s.withFetchWord 16 w) = exec i (s.withFetchWord 16 w).beforeFetch

/-- The trace pair is the pc and the word of a cycle that executes an instruction, and there is one for every such cycle
(R181).
Rests on the choices of log 2, log 3 and log 4 (the inputs in the state) and log 22 (the trace). -/
def Obligations.TraceIsWhatRuns : Prop :=
  ∀ s : State,
    (∀ pc op, tracePair s = some (pc, op) →
      pc = s.pc ∧ s.fetch = some op ∧ ∃ i, decodeWord op = .ok i ∧ step s = exec i s.beforeFetch) ∧
    (∀ i, s.Running → s.Fetches i → ∃ op, tracePair s = some (s.pc, op) ∧ decodeWord op = .ok i)
end

