-- ==== Sys2Proof/Laws/State.lean ====
section
/-! SUPPORT. What each named update does to each field of the state, so that no later proof unfolds a record update. -/

namespace Sys2Proof.Machine

variable (s : State)

/-! ## `State.setV` -/

@[simp] theorem State.setV_v (x : RegIdx) (b : Byte) : (s.setV x b).v = s.v.set x b := rfl
@[simp] theorem State.setV_pc (x : RegIdx) (b : Byte) : (s.setV x b).pc = s.pc := rfl
@[simp] theorem State.setV_index (x : RegIdx) (b : Byte) : (s.setV x b).index = s.index := rfl
@[simp] theorem State.setV_stack (x : RegIdx) (b : Byte) : (s.setV x b).stack = s.stack := rfl
@[simp] theorem State.setV_sp (x : RegIdx) (b : Byte) : (s.setV x b).sp = s.sp := rfl
@[simp] theorem State.setV_dt (x : RegIdx) (b : Byte) : (s.setV x b).dt = s.dt := rfl
@[simp] theorem State.setV_st (x : RegIdx) (b : Byte) : (s.setV x b).st = s.st := rfl
@[simp] theorem State.setV_lastUpdate (x : RegIdx) (b : Byte) : (s.setV x b).lastUpdate = s.lastUpdate := rfl
@[simp] theorem State.setV_fb (x : RegIdx) (b : Byte) : (s.setV x b).fb = s.fb := rfl
@[simp] theorem State.setV_keys (x : RegIdx) (b : Byte) : (s.setV x b).keys = s.keys := rfl
@[simp] theorem State.setV_keysPrev (x : RegIdx) (b : Byte) : (s.setV x b).keysPrev = s.keysPrev := rfl
@[simp] theorem State.setV_halted (x : RegIdx) (b : Byte) : (s.setV x b).halted = s.halted := rfl
@[simp] theorem State.setV_faultCause (x : RegIdx) (b : Byte) : (s.setV x b).faultCause = s.faultCause := rfl
@[simp] theorem State.setV_faultPc (x : RegIdx) (b : Byte) : (s.setV x b).faultPc = s.faultPc := rfl
@[simp] theorem State.setV_faultOpcode (x : RegIdx) (b : Byte) : (s.setV x b).faultOpcode = s.faultOpcode := rfl
@[simp] theorem State.setV_mem (x : RegIdx) (b : Byte) : (s.setV x b).mem = s.mem := rfl
@[simp] theorem State.setV_shiftLegacy (x : RegIdx) (b : Byte) : (s.setV x b).shiftLegacy = s.shiftLegacy := rfl
@[simp] theorem State.setV_tickPeriod (x : RegIdx) (b : Byte) : (s.setV x b).tickPeriod = s.tickPeriod := rfl
@[simp] theorem State.setV_inputs (x : RegIdx) (b : Byte) : (s.setV x b).inputs = s.inputs := rfl
@[simp] theorem State.setV_clock (x : RegIdx) (b : Byte) : (s.setV x b).clock = s.clock := rfl
@[simp] theorem State.setV_rnd (x : RegIdx) (b : Byte) : (s.setV x b).rnd = s.rnd := rfl
@[simp] theorem State.setV_cycles (x : RegIdx) (b : Byte) : (s.setV x b).cycles = s.cycles := rfl

/-! ## `State.setPc` -/

@[simp] theorem State.setPc_v (a : Addr) : (s.setPc a).v = s.v := rfl
@[simp] theorem State.setPc_pc (a : Addr) : (s.setPc a).pc = a := rfl
@[simp] theorem State.setPc_index (a : Addr) : (s.setPc a).index = s.index := rfl
@[simp] theorem State.setPc_stack (a : Addr) : (s.setPc a).stack = s.stack := rfl
@[simp] theorem State.setPc_sp (a : Addr) : (s.setPc a).sp = s.sp := rfl
@[simp] theorem State.setPc_dt (a : Addr) : (s.setPc a).dt = s.dt := rfl
@[simp] theorem State.setPc_st (a : Addr) : (s.setPc a).st = s.st := rfl
@[simp] theorem State.setPc_lastUpdate (a : Addr) : (s.setPc a).lastUpdate = s.lastUpdate := rfl
@[simp] theorem State.setPc_fb (a : Addr) : (s.setPc a).fb = s.fb := rfl
@[simp] theorem State.setPc_keys (a : Addr) : (s.setPc a).keys = s.keys := rfl
@[simp] theorem State.setPc_keysPrev (a : Addr) : (s.setPc a).keysPrev = s.keysPrev := rfl
@[simp] theorem State.setPc_halted (a : Addr) : (s.setPc a).halted = s.halted := rfl
@[simp] theorem State.setPc_faultCause (a : Addr) : (s.setPc a).faultCause = s.faultCause := rfl
@[simp] theorem State.setPc_faultPc (a : Addr) : (s.setPc a).faultPc = s.faultPc := rfl
@[simp] theorem State.setPc_faultOpcode (a : Addr) : (s.setPc a).faultOpcode = s.faultOpcode := rfl
@[simp] theorem State.setPc_mem (a : Addr) : (s.setPc a).mem = s.mem := rfl
@[simp] theorem State.setPc_shiftLegacy (a : Addr) : (s.setPc a).shiftLegacy = s.shiftLegacy := rfl
@[simp] theorem State.setPc_tickPeriod (a : Addr) : (s.setPc a).tickPeriod = s.tickPeriod := rfl
@[simp] theorem State.setPc_inputs (a : Addr) : (s.setPc a).inputs = s.inputs := rfl
@[simp] theorem State.setPc_clock (a : Addr) : (s.setPc a).clock = s.clock := rfl
@[simp] theorem State.setPc_rnd (a : Addr) : (s.setPc a).rnd = s.rnd := rfl
@[simp] theorem State.setPc_cycles (a : Addr) : (s.setPc a).cycles = s.cycles := rfl

/-! ## `State.advance` -/

@[simp] theorem State.advance_v : (s.advance).v = s.v := rfl
@[simp] theorem State.advance_pc : (s.advance).pc = s.pc + 2#16 := rfl
@[simp] theorem State.advance_index : (s.advance).index = s.index := rfl
@[simp] theorem State.advance_stack : (s.advance).stack = s.stack := rfl
@[simp] theorem State.advance_sp : (s.advance).sp = s.sp := rfl
@[simp] theorem State.advance_dt : (s.advance).dt = s.dt := rfl
@[simp] theorem State.advance_st : (s.advance).st = s.st := rfl
@[simp] theorem State.advance_lastUpdate : (s.advance).lastUpdate = s.lastUpdate := rfl
@[simp] theorem State.advance_fb : (s.advance).fb = s.fb := rfl
@[simp] theorem State.advance_keys : (s.advance).keys = s.keys := rfl
@[simp] theorem State.advance_keysPrev : (s.advance).keysPrev = s.keysPrev := rfl
@[simp] theorem State.advance_halted : (s.advance).halted = s.halted := rfl
@[simp] theorem State.advance_faultCause : (s.advance).faultCause = s.faultCause := rfl
@[simp] theorem State.advance_faultPc : (s.advance).faultPc = s.faultPc := rfl
@[simp] theorem State.advance_faultOpcode : (s.advance).faultOpcode = s.faultOpcode := rfl
@[simp] theorem State.advance_mem : (s.advance).mem = s.mem := rfl
@[simp] theorem State.advance_shiftLegacy : (s.advance).shiftLegacy = s.shiftLegacy := rfl
@[simp] theorem State.advance_tickPeriod : (s.advance).tickPeriod = s.tickPeriod := rfl
@[simp] theorem State.advance_inputs : (s.advance).inputs = s.inputs := rfl
@[simp] theorem State.advance_clock : (s.advance).clock = s.clock := rfl
@[simp] theorem State.advance_rnd : (s.advance).rnd = s.rnd := rfl
@[simp] theorem State.advance_cycles : (s.advance).cycles = s.cycles := rfl

/-! ## `State.skipIf` -/

@[simp] theorem State.skipIf_v (c : Bool) : (s.skipIf c).v = s.v := rfl
@[simp] theorem State.skipIf_pc (c : Bool) : (s.skipIf c).pc = if c then s.pc + 4#16 else s.pc + 2#16 := rfl
@[simp] theorem State.skipIf_index (c : Bool) : (s.skipIf c).index = s.index := rfl
@[simp] theorem State.skipIf_stack (c : Bool) : (s.skipIf c).stack = s.stack := rfl
@[simp] theorem State.skipIf_sp (c : Bool) : (s.skipIf c).sp = s.sp := rfl
@[simp] theorem State.skipIf_dt (c : Bool) : (s.skipIf c).dt = s.dt := rfl
@[simp] theorem State.skipIf_st (c : Bool) : (s.skipIf c).st = s.st := rfl
@[simp] theorem State.skipIf_lastUpdate (c : Bool) : (s.skipIf c).lastUpdate = s.lastUpdate := rfl
@[simp] theorem State.skipIf_fb (c : Bool) : (s.skipIf c).fb = s.fb := rfl
@[simp] theorem State.skipIf_keys (c : Bool) : (s.skipIf c).keys = s.keys := rfl
@[simp] theorem State.skipIf_keysPrev (c : Bool) : (s.skipIf c).keysPrev = s.keysPrev := rfl
@[simp] theorem State.skipIf_halted (c : Bool) : (s.skipIf c).halted = s.halted := rfl
@[simp] theorem State.skipIf_faultCause (c : Bool) : (s.skipIf c).faultCause = s.faultCause := rfl
@[simp] theorem State.skipIf_faultPc (c : Bool) : (s.skipIf c).faultPc = s.faultPc := rfl
@[simp] theorem State.skipIf_faultOpcode (c : Bool) : (s.skipIf c).faultOpcode = s.faultOpcode := rfl
@[simp] theorem State.skipIf_mem (c : Bool) : (s.skipIf c).mem = s.mem := rfl
@[simp] theorem State.skipIf_shiftLegacy (c : Bool) : (s.skipIf c).shiftLegacy = s.shiftLegacy := rfl
@[simp] theorem State.skipIf_tickPeriod (c : Bool) : (s.skipIf c).tickPeriod = s.tickPeriod := rfl
@[simp] theorem State.skipIf_inputs (c : Bool) : (s.skipIf c).inputs = s.inputs := rfl
@[simp] theorem State.skipIf_clock (c : Bool) : (s.skipIf c).clock = s.clock := rfl
@[simp] theorem State.skipIf_rnd (c : Bool) : (s.skipIf c).rnd = s.rnd := rfl
@[simp] theorem State.skipIf_cycles (c : Bool) : (s.skipIf c).cycles = s.cycles := rfl

/-! ## `State.setIndex` -/

@[simp] theorem State.setIndex_v (a : Addr) : (s.setIndex a).v = s.v := rfl
@[simp] theorem State.setIndex_pc (a : Addr) : (s.setIndex a).pc = s.pc := rfl
@[simp] theorem State.setIndex_index (a : Addr) : (s.setIndex a).index = a := rfl
@[simp] theorem State.setIndex_stack (a : Addr) : (s.setIndex a).stack = s.stack := rfl
@[simp] theorem State.setIndex_sp (a : Addr) : (s.setIndex a).sp = s.sp := rfl
@[simp] theorem State.setIndex_dt (a : Addr) : (s.setIndex a).dt = s.dt := rfl
@[simp] theorem State.setIndex_st (a : Addr) : (s.setIndex a).st = s.st := rfl
@[simp] theorem State.setIndex_lastUpdate (a : Addr) : (s.setIndex a).lastUpdate = s.lastUpdate := rfl
@[simp] theorem State.setIndex_fb (a : Addr) : (s.setIndex a).fb = s.fb := rfl
@[simp] theorem State.setIndex_keys (a : Addr) : (s.setIndex a).keys = s.keys := rfl
@[simp] theorem State.setIndex_keysPrev (a : Addr) : (s.setIndex a).keysPrev = s.keysPrev := rfl
@[simp] theorem State.setIndex_halted (a : Addr) : (s.setIndex a).halted = s.halted := rfl
@[simp] theorem State.setIndex_faultCause (a : Addr) : (s.setIndex a).faultCause = s.faultCause := rfl
@[simp] theorem State.setIndex_faultPc (a : Addr) : (s.setIndex a).faultPc = s.faultPc := rfl
@[simp] theorem State.setIndex_faultOpcode (a : Addr) : (s.setIndex a).faultOpcode = s.faultOpcode := rfl
@[simp] theorem State.setIndex_mem (a : Addr) : (s.setIndex a).mem = s.mem := rfl
@[simp] theorem State.setIndex_shiftLegacy (a : Addr) : (s.setIndex a).shiftLegacy = s.shiftLegacy := rfl
@[simp] theorem State.setIndex_tickPeriod (a : Addr) : (s.setIndex a).tickPeriod = s.tickPeriod := rfl
@[simp] theorem State.setIndex_inputs (a : Addr) : (s.setIndex a).inputs = s.inputs := rfl
@[simp] theorem State.setIndex_clock (a : Addr) : (s.setIndex a).clock = s.clock := rfl
@[simp] theorem State.setIndex_rnd (a : Addr) : (s.setIndex a).rnd = s.rnd := rfl
@[simp] theorem State.setIndex_cycles (a : Addr) : (s.setIndex a).cycles = s.cycles := rfl

/-! ## `State.setDt` -/

@[simp] theorem State.setDt_v (b : Byte) : (s.setDt b).v = s.v := rfl
@[simp] theorem State.setDt_pc (b : Byte) : (s.setDt b).pc = s.pc := rfl
@[simp] theorem State.setDt_index (b : Byte) : (s.setDt b).index = s.index := rfl
@[simp] theorem State.setDt_stack (b : Byte) : (s.setDt b).stack = s.stack := rfl
@[simp] theorem State.setDt_sp (b : Byte) : (s.setDt b).sp = s.sp := rfl
@[simp] theorem State.setDt_dt (b : Byte) : (s.setDt b).dt = b := rfl
@[simp] theorem State.setDt_st (b : Byte) : (s.setDt b).st = s.st := rfl
@[simp] theorem State.setDt_lastUpdate (b : Byte) : (s.setDt b).lastUpdate = s.lastUpdate := rfl
@[simp] theorem State.setDt_fb (b : Byte) : (s.setDt b).fb = s.fb := rfl
@[simp] theorem State.setDt_keys (b : Byte) : (s.setDt b).keys = s.keys := rfl
@[simp] theorem State.setDt_keysPrev (b : Byte) : (s.setDt b).keysPrev = s.keysPrev := rfl
@[simp] theorem State.setDt_halted (b : Byte) : (s.setDt b).halted = s.halted := rfl
@[simp] theorem State.setDt_faultCause (b : Byte) : (s.setDt b).faultCause = s.faultCause := rfl
@[simp] theorem State.setDt_faultPc (b : Byte) : (s.setDt b).faultPc = s.faultPc := rfl
@[simp] theorem State.setDt_faultOpcode (b : Byte) : (s.setDt b).faultOpcode = s.faultOpcode := rfl
@[simp] theorem State.setDt_mem (b : Byte) : (s.setDt b).mem = s.mem := rfl
@[simp] theorem State.setDt_shiftLegacy (b : Byte) : (s.setDt b).shiftLegacy = s.shiftLegacy := rfl
@[simp] theorem State.setDt_tickPeriod (b : Byte) : (s.setDt b).tickPeriod = s.tickPeriod := rfl
@[simp] theorem State.setDt_inputs (b : Byte) : (s.setDt b).inputs = s.inputs := rfl
@[simp] theorem State.setDt_clock (b : Byte) : (s.setDt b).clock = s.clock := rfl
@[simp] theorem State.setDt_rnd (b : Byte) : (s.setDt b).rnd = s.rnd := rfl
@[simp] theorem State.setDt_cycles (b : Byte) : (s.setDt b).cycles = s.cycles := rfl

/-! ## `State.setSt` -/

@[simp] theorem State.setSt_v (b : Byte) : (s.setSt b).v = s.v := rfl
@[simp] theorem State.setSt_pc (b : Byte) : (s.setSt b).pc = s.pc := rfl
@[simp] theorem State.setSt_index (b : Byte) : (s.setSt b).index = s.index := rfl
@[simp] theorem State.setSt_stack (b : Byte) : (s.setSt b).stack = s.stack := rfl
@[simp] theorem State.setSt_sp (b : Byte) : (s.setSt b).sp = s.sp := rfl
@[simp] theorem State.setSt_dt (b : Byte) : (s.setSt b).dt = s.dt := rfl
@[simp] theorem State.setSt_st (b : Byte) : (s.setSt b).st = b := rfl
@[simp] theorem State.setSt_lastUpdate (b : Byte) : (s.setSt b).lastUpdate = s.lastUpdate := rfl
@[simp] theorem State.setSt_fb (b : Byte) : (s.setSt b).fb = s.fb := rfl
@[simp] theorem State.setSt_keys (b : Byte) : (s.setSt b).keys = s.keys := rfl
@[simp] theorem State.setSt_keysPrev (b : Byte) : (s.setSt b).keysPrev = s.keysPrev := rfl
@[simp] theorem State.setSt_halted (b : Byte) : (s.setSt b).halted = s.halted := rfl
@[simp] theorem State.setSt_faultCause (b : Byte) : (s.setSt b).faultCause = s.faultCause := rfl
@[simp] theorem State.setSt_faultPc (b : Byte) : (s.setSt b).faultPc = s.faultPc := rfl
@[simp] theorem State.setSt_faultOpcode (b : Byte) : (s.setSt b).faultOpcode = s.faultOpcode := rfl
@[simp] theorem State.setSt_mem (b : Byte) : (s.setSt b).mem = s.mem := rfl
@[simp] theorem State.setSt_shiftLegacy (b : Byte) : (s.setSt b).shiftLegacy = s.shiftLegacy := rfl
@[simp] theorem State.setSt_tickPeriod (b : Byte) : (s.setSt b).tickPeriod = s.tickPeriod := rfl
@[simp] theorem State.setSt_inputs (b : Byte) : (s.setSt b).inputs = s.inputs := rfl
@[simp] theorem State.setSt_clock (b : Byte) : (s.setSt b).clock = s.clock := rfl
@[simp] theorem State.setSt_rnd (b : Byte) : (s.setSt b).rnd = s.rnd := rfl
@[simp] theorem State.setSt_cycles (b : Byte) : (s.setSt b).cycles = s.cycles := rfl

/-! ## `State.setResultAndFlag` -/

@[simp] theorem State.setResultAndFlag_v (x : RegIdx) (b : Byte) (f : Bool) : (s.setResultAndFlag x b f).v = (s.v.set x b).set regF (flagByte f) := rfl
@[simp] theorem State.setResultAndFlag_pc (x : RegIdx) (b : Byte) (f : Bool) : (s.setResultAndFlag x b f).pc = s.pc := rfl
@[simp] theorem State.setResultAndFlag_index (x : RegIdx) (b : Byte) (f : Bool) : (s.setResultAndFlag x b f).index = s.index := rfl
@[simp] theorem State.setResultAndFlag_stack (x : RegIdx) (b : Byte) (f : Bool) : (s.setResultAndFlag x b f).stack = s.stack := rfl
@[simp] theorem State.setResultAndFlag_sp (x : RegIdx) (b : Byte) (f : Bool) : (s.setResultAndFlag x b f).sp = s.sp := rfl
@[simp] theorem State.setResultAndFlag_dt (x : RegIdx) (b : Byte) (f : Bool) : (s.setResultAndFlag x b f).dt = s.dt := rfl
@[simp] theorem State.setResultAndFlag_st (x : RegIdx) (b : Byte) (f : Bool) : (s.setResultAndFlag x b f).st = s.st := rfl
@[simp] theorem State.setResultAndFlag_lastUpdate (x : RegIdx) (b : Byte) (f : Bool) : (s.setResultAndFlag x b f).lastUpdate = s.lastUpdate := rfl
@[simp] theorem State.setResultAndFlag_fb (x : RegIdx) (b : Byte) (f : Bool) : (s.setResultAndFlag x b f).fb = s.fb := rfl
@[simp] theorem State.setResultAndFlag_keys (x : RegIdx) (b : Byte) (f : Bool) : (s.setResultAndFlag x b f).keys = s.keys := rfl
@[simp] theorem State.setResultAndFlag_keysPrev (x : RegIdx) (b : Byte) (f : Bool) : (s.setResultAndFlag x b f).keysPrev = s.keysPrev := rfl
@[simp] theorem State.setResultAndFlag_halted (x : RegIdx) (b : Byte) (f : Bool) : (s.setResultAndFlag x b f).halted = s.halted := rfl
@[simp] theorem State.setResultAndFlag_faultCause (x : RegIdx) (b : Byte) (f : Bool) : (s.setResultAndFlag x b f).faultCause = s.faultCause := rfl
@[simp] theorem State.setResultAndFlag_faultPc (x : RegIdx) (b : Byte) (f : Bool) : (s.setResultAndFlag x b f).faultPc = s.faultPc := rfl
@[simp] theorem State.setResultAndFlag_faultOpcode (x : RegIdx) (b : Byte) (f : Bool) : (s.setResultAndFlag x b f).faultOpcode = s.faultOpcode := rfl
@[simp] theorem State.setResultAndFlag_mem (x : RegIdx) (b : Byte) (f : Bool) : (s.setResultAndFlag x b f).mem = s.mem := rfl
@[simp] theorem State.setResultAndFlag_shiftLegacy (x : RegIdx) (b : Byte) (f : Bool) : (s.setResultAndFlag x b f).shiftLegacy = s.shiftLegacy := rfl
@[simp] theorem State.setResultAndFlag_tickPeriod (x : RegIdx) (b : Byte) (f : Bool) : (s.setResultAndFlag x b f).tickPeriod = s.tickPeriod := rfl
@[simp] theorem State.setResultAndFlag_inputs (x : RegIdx) (b : Byte) (f : Bool) : (s.setResultAndFlag x b f).inputs = s.inputs := rfl
@[simp] theorem State.setResultAndFlag_clock (x : RegIdx) (b : Byte) (f : Bool) : (s.setResultAndFlag x b f).clock = s.clock := rfl
@[simp] theorem State.setResultAndFlag_rnd (x : RegIdx) (b : Byte) (f : Bool) : (s.setResultAndFlag x b f).rnd = s.rnd := rfl
@[simp] theorem State.setResultAndFlag_cycles (x : RegIdx) (b : Byte) (f : Bool) : (s.setResultAndFlag x b f).cycles = s.cycles := rfl

/-! ## `State.raise` -/

@[simp] theorem State.raise_v (c : FaultCause) (op : Word) : (s.raise c op).v = s.v := rfl
@[simp] theorem State.raise_pc (c : FaultCause) (op : Word) : (s.raise c op).pc = s.pc := rfl
@[simp] theorem State.raise_index (c : FaultCause) (op : Word) : (s.raise c op).index = s.index := rfl
@[simp] theorem State.raise_stack (c : FaultCause) (op : Word) : (s.raise c op).stack = s.stack := rfl
@[simp] theorem State.raise_sp (c : FaultCause) (op : Word) : (s.raise c op).sp = s.sp := rfl
@[simp] theorem State.raise_dt (c : FaultCause) (op : Word) : (s.raise c op).dt = s.dt := rfl
@[simp] theorem State.raise_st (c : FaultCause) (op : Word) : (s.raise c op).st = s.st := rfl
@[simp] theorem State.raise_lastUpdate (c : FaultCause) (op : Word) : (s.raise c op).lastUpdate = s.lastUpdate := rfl
@[simp] theorem State.raise_fb (c : FaultCause) (op : Word) : (s.raise c op).fb = s.fb := rfl
@[simp] theorem State.raise_keys (c : FaultCause) (op : Word) : (s.raise c op).keys = s.keys := rfl
@[simp] theorem State.raise_keysPrev (c : FaultCause) (op : Word) : (s.raise c op).keysPrev = s.keysPrev := rfl
@[simp] theorem State.raise_halted (c : FaultCause) (op : Word) : (s.raise c op).halted = true := rfl
@[simp] theorem State.raise_faultCause (c : FaultCause) (op : Word) : (s.raise c op).faultCause = c := rfl
@[simp] theorem State.raise_faultPc (c : FaultCause) (op : Word) : (s.raise c op).faultPc = s.pc := rfl
@[simp] theorem State.raise_faultOpcode (c : FaultCause) (op : Word) : (s.raise c op).faultOpcode = op := rfl
@[simp] theorem State.raise_mem (c : FaultCause) (op : Word) : (s.raise c op).mem = s.mem := rfl
@[simp] theorem State.raise_shiftLegacy (c : FaultCause) (op : Word) : (s.raise c op).shiftLegacy = s.shiftLegacy := rfl
@[simp] theorem State.raise_tickPeriod (c : FaultCause) (op : Word) : (s.raise c op).tickPeriod = s.tickPeriod := rfl
@[simp] theorem State.raise_inputs (c : FaultCause) (op : Word) : (s.raise c op).inputs = s.inputs := rfl
@[simp] theorem State.raise_clock (c : FaultCause) (op : Word) : (s.raise c op).clock = s.clock := rfl
@[simp] theorem State.raise_rnd (c : FaultCause) (op : Word) : (s.raise c op).rnd = s.rnd := rfl
@[simp] theorem State.raise_cycles (c : FaultCause) (op : Word) : (s.raise c op).cycles = s.cycles := rfl

/-! ## `State.takeInput` -/

@[simp] theorem State.takeInput_v : (s.takeInput).v = s.v := rfl
@[simp] theorem State.takeInput_pc : (s.takeInput).pc = s.pc := rfl
@[simp] theorem State.takeInput_index : (s.takeInput).index = s.index := rfl
@[simp] theorem State.takeInput_stack : (s.takeInput).stack = s.stack := rfl
@[simp] theorem State.takeInput_sp : (s.takeInput).sp = s.sp := rfl
@[simp] theorem State.takeInput_dt : (s.takeInput).dt = s.dt := rfl
@[simp] theorem State.takeInput_st : (s.takeInput).st = s.st := rfl
@[simp] theorem State.takeInput_lastUpdate : (s.takeInput).lastUpdate = s.lastUpdate := rfl
@[simp] theorem State.takeInput_fb : (s.takeInput).fb = s.fb := rfl
@[simp] theorem State.takeInput_keys : (s.takeInput).keys = s.keys := rfl
@[simp] theorem State.takeInput_keysPrev : (s.takeInput).keysPrev = s.keysPrev := rfl
@[simp] theorem State.takeInput_halted : (s.takeInput).halted = s.halted := rfl
@[simp] theorem State.takeInput_faultCause : (s.takeInput).faultCause = s.faultCause := rfl
@[simp] theorem State.takeInput_faultPc : (s.takeInput).faultPc = s.faultPc := rfl
@[simp] theorem State.takeInput_faultOpcode : (s.takeInput).faultOpcode = s.faultOpcode := rfl
@[simp] theorem State.takeInput_mem : (s.takeInput).mem = s.mem := rfl
@[simp] theorem State.takeInput_shiftLegacy : (s.takeInput).shiftLegacy = s.shiftLegacy := rfl
@[simp] theorem State.takeInput_tickPeriod : (s.takeInput).tickPeriod = s.tickPeriod := rfl
@[simp] theorem State.takeInput_inputs : (s.takeInput).inputs = s.inputs.tail := rfl
@[simp] theorem State.takeInput_clock : (s.takeInput).clock = s.clock := rfl
@[simp] theorem State.takeInput_rnd : (s.takeInput).rnd = s.rnd := rfl
@[simp] theorem State.takeInput_cycles : (s.takeInput).cycles = s.cycles + 1 := rfl

/-! ## `State.sampleKeys` -/

@[simp] theorem State.sampleKeys_v (k : KeyLines) : (s.sampleKeys k).v = s.v := rfl
@[simp] theorem State.sampleKeys_pc (k : KeyLines) : (s.sampleKeys k).pc = s.pc := rfl
@[simp] theorem State.sampleKeys_index (k : KeyLines) : (s.sampleKeys k).index = s.index := rfl
@[simp] theorem State.sampleKeys_stack (k : KeyLines) : (s.sampleKeys k).stack = s.stack := rfl
@[simp] theorem State.sampleKeys_sp (k : KeyLines) : (s.sampleKeys k).sp = s.sp := rfl
@[simp] theorem State.sampleKeys_dt (k : KeyLines) : (s.sampleKeys k).dt = s.dt := rfl
@[simp] theorem State.sampleKeys_st (k : KeyLines) : (s.sampleKeys k).st = s.st := rfl
@[simp] theorem State.sampleKeys_lastUpdate (k : KeyLines) : (s.sampleKeys k).lastUpdate = s.lastUpdate := rfl
@[simp] theorem State.sampleKeys_fb (k : KeyLines) : (s.sampleKeys k).fb = s.fb := rfl
@[simp] theorem State.sampleKeys_keys (k : KeyLines) : (s.sampleKeys k).keys = k := rfl
@[simp] theorem State.sampleKeys_keysPrev (k : KeyLines) : (s.sampleKeys k).keysPrev = s.keys := rfl
@[simp] theorem State.sampleKeys_halted (k : KeyLines) : (s.sampleKeys k).halted = s.halted := rfl
@[simp] theorem State.sampleKeys_faultCause (k : KeyLines) : (s.sampleKeys k).faultCause = s.faultCause := rfl
@[simp] theorem State.sampleKeys_faultPc (k : KeyLines) : (s.sampleKeys k).faultPc = s.faultPc := rfl
@[simp] theorem State.sampleKeys_faultOpcode (k : KeyLines) : (s.sampleKeys k).faultOpcode = s.faultOpcode := rfl
@[simp] theorem State.sampleKeys_mem (k : KeyLines) : (s.sampleKeys k).mem = s.mem := rfl
@[simp] theorem State.sampleKeys_shiftLegacy (k : KeyLines) : (s.sampleKeys k).shiftLegacy = s.shiftLegacy := rfl
@[simp] theorem State.sampleKeys_tickPeriod (k : KeyLines) : (s.sampleKeys k).tickPeriod = s.tickPeriod := rfl
@[simp] theorem State.sampleKeys_inputs (k : KeyLines) : (s.sampleKeys k).inputs = s.inputs := rfl
@[simp] theorem State.sampleKeys_clock (k : KeyLines) : (s.sampleKeys k).clock = s.clock := rfl
@[simp] theorem State.sampleKeys_rnd (k : KeyLines) : (s.sampleKeys k).rnd = s.rnd := rfl
@[simp] theorem State.sampleKeys_cycles (k : KeyLines) : (s.sampleKeys k).cycles = s.cycles := rfl

/-! ## `State.latchInput` -/

@[simp] theorem State.latchInput_v (i : CycleInput) : (s.latchInput i).v = s.v := rfl
@[simp] theorem State.latchInput_pc (i : CycleInput) : (s.latchInput i).pc = s.pc := rfl
@[simp] theorem State.latchInput_index (i : CycleInput) : (s.latchInput i).index = s.index := rfl
@[simp] theorem State.latchInput_stack (i : CycleInput) : (s.latchInput i).stack = s.stack := rfl
@[simp] theorem State.latchInput_sp (i : CycleInput) : (s.latchInput i).sp = s.sp := rfl
@[simp] theorem State.latchInput_dt (i : CycleInput) : (s.latchInput i).dt = s.dt := rfl
@[simp] theorem State.latchInput_st (i : CycleInput) : (s.latchInput i).st = s.st := rfl
@[simp] theorem State.latchInput_lastUpdate (i : CycleInput) : (s.latchInput i).lastUpdate = s.lastUpdate := rfl
@[simp] theorem State.latchInput_fb (i : CycleInput) : (s.latchInput i).fb = s.fb := rfl
@[simp] theorem State.latchInput_keys (i : CycleInput) : (s.latchInput i).keys = s.keys := rfl
@[simp] theorem State.latchInput_keysPrev (i : CycleInput) : (s.latchInput i).keysPrev = s.keysPrev := rfl
@[simp] theorem State.latchInput_halted (i : CycleInput) : (s.latchInput i).halted = s.halted := rfl
@[simp] theorem State.latchInput_faultCause (i : CycleInput) : (s.latchInput i).faultCause = s.faultCause := rfl
@[simp] theorem State.latchInput_faultPc (i : CycleInput) : (s.latchInput i).faultPc = s.faultPc := rfl
@[simp] theorem State.latchInput_faultOpcode (i : CycleInput) : (s.latchInput i).faultOpcode = s.faultOpcode := rfl
@[simp] theorem State.latchInput_mem (i : CycleInput) : (s.latchInput i).mem = s.mem := rfl
@[simp] theorem State.latchInput_shiftLegacy (i : CycleInput) : (s.latchInput i).shiftLegacy = s.shiftLegacy := rfl
@[simp] theorem State.latchInput_tickPeriod (i : CycleInput) : (s.latchInput i).tickPeriod = s.tickPeriod := rfl
@[simp] theorem State.latchInput_inputs (i : CycleInput) : (s.latchInput i).inputs = s.inputs := rfl
@[simp] theorem State.latchInput_clock (i : CycleInput) : (s.latchInput i).clock = i.now := rfl
@[simp] theorem State.latchInput_rnd (i : CycleInput) : (s.latchInput i).rnd = i.rnd := rfl
@[simp] theorem State.latchInput_cycles (i : CycleInput) : (s.latchInput i).cycles = s.cycles := rfl

/-! ## `State.stop` -/

@[simp] theorem State.stop_v : (s.stop).v = s.v := rfl
@[simp] theorem State.stop_pc : (s.stop).pc = s.pc := rfl
@[simp] theorem State.stop_index : (s.stop).index = s.index := rfl
@[simp] theorem State.stop_stack : (s.stop).stack = s.stack := rfl
@[simp] theorem State.stop_sp : (s.stop).sp = s.sp := rfl
@[simp] theorem State.stop_dt : (s.stop).dt = s.dt := rfl
@[simp] theorem State.stop_st : (s.stop).st = s.st := rfl
@[simp] theorem State.stop_lastUpdate : (s.stop).lastUpdate = s.lastUpdate := rfl
@[simp] theorem State.stop_fb : (s.stop).fb = s.fb := rfl
@[simp] theorem State.stop_keys : (s.stop).keys = s.keys := rfl
@[simp] theorem State.stop_keysPrev : (s.stop).keysPrev = s.keysPrev := rfl
@[simp] theorem State.stop_halted : (s.stop).halted = true := rfl
@[simp] theorem State.stop_faultCause : (s.stop).faultCause = s.faultCause := rfl
@[simp] theorem State.stop_faultPc : (s.stop).faultPc = s.faultPc := rfl
@[simp] theorem State.stop_faultOpcode : (s.stop).faultOpcode = s.faultOpcode := rfl
@[simp] theorem State.stop_mem : (s.stop).mem = s.mem := rfl
@[simp] theorem State.stop_shiftLegacy : (s.stop).shiftLegacy = s.shiftLegacy := rfl
@[simp] theorem State.stop_tickPeriod : (s.stop).tickPeriod = s.tickPeriod := rfl
@[simp] theorem State.stop_inputs : (s.stop).inputs = s.inputs := rfl
@[simp] theorem State.stop_clock : (s.stop).clock = s.clock := rfl
@[simp] theorem State.stop_rnd : (s.stop).rnd = s.rnd := rfl
@[simp] theorem State.stop_cycles : (s.stop).cycles = s.cycles := rfl

end Sys2Proof.Machine
end

