-- ==== Sys2Proof/Laws/Memory.lean ====
section
/-! SUPPORT. The laws of memory: a write is read back, it leaves every other address alone, every operation keeps the
canonical form. -/

namespace Sys2Proof.Machine

/-- A cell list in canonical form above a bound: addresses rising, at least `lo`, below 4096, no byte its address reads as
anyway. `Memory.wf` in the shape inductions use. -/
def Memory.Canonical : Nat → List Host.Cell → Prop
  | _, [] => True
  | lo, c :: rest =>
    lo ≤ c.1 ∧ c.1 < 4096 ∧ c.2 ≠ Memory.background c.1 ∧ Memory.Canonical (c.1 + 1) rest

theorem Memory.Canonical.mono {lo lo' : Nat} (h : lo' ≤ lo) :
    ∀ {l : List Host.Cell}, Memory.Canonical lo l → Memory.Canonical lo' l
  | [], _ => trivial
  | _ :: _, ⟨h1, h2⟩ => ⟨by omega, h2⟩

theorem Memory.canonical_iff (l : List Host.Cell) (lo : Nat) :
    Memory.Canonical lo l ↔
      l.Pairwise (fun c d => c.1 < d.1) ∧ ∀ c ∈ l, lo ≤ c.1 ∧ c.1 < 4096 ∧ c.2 ≠ Memory.background c.1 := by
  induction l generalizing lo with
  | nil => simp [Memory.Canonical]
  | cons c rest ih =>
    simp only [Memory.Canonical, ih, List.pairwise_cons, List.mem_cons, forall_eq_or_imp]
    constructor
    · rintro ⟨h1, h2, h3, h4, h5⟩
      exact ⟨⟨fun d hd => (h5 d hd).1, h4⟩, ⟨h1, h2, h3⟩, fun d hd => ⟨by have := (h5 d hd).1; omega, (h5 d hd).2⟩⟩
    · rintro ⟨⟨h1, h2⟩, ⟨h3, h4, h5⟩, h6⟩
      exact ⟨h3, h4, h5, h2, fun d hd => ⟨h1 d hd, (h6 d hd).2⟩⟩

theorem Memory.wf_iff_canonical (m : Memory) : m.wf = true ↔ Memory.Canonical 0 m.cells := by
  have h : Config.memSize = 4096 := rfl
  simp only [Memory.canonical_iff, Memory.wf, h, Bool.and_eq_true, decide_eq_true_eq, List.all_eq_true, bne_iff_ne,
    Nat.zero_le, true_and]

/-- An address below every listed one is not listed. -/
theorem Memory.lookup_of_canonical {lo a : Nat} (ha : a < lo) :
    ∀ {l : List Host.Cell}, Memory.Canonical lo l → Memory.lookup l a = none
  | [], _ => rfl
  | c :: rest, ⟨h1, _, _, h4⟩ => by
    have hne : c.1 ≠ a := by omega
    simp only [Memory.lookup, hne, if_false]
    exact Memory.lookup_of_canonical (by omega) h4

/-- What a cell list reads as at an address. -/
def Memory.readCells (l : List Host.Cell) (a : Nat) : Byte := (Memory.lookup l a).getD (Memory.background a)

theorem Memory.read_eq_readCells (m : Memory) (a : Nat) : m.read a = Memory.readCells m.cells a := rfl

theorem Memory.readCells_cons (c : Host.Cell) (rest : List Host.Cell) (a : Nat) :
    Memory.readCells (c :: rest) a = if c.1 = a then c.2 else Memory.readCells rest a := by
  simp only [Memory.readCells, Memory.lookup]
  split <;> simp

theorem Memory.readCells_of_canonical {lo a : Nat} (ha : a < lo) {l : List Host.Cell} (h : Memory.Canonical lo l) :
    Memory.readCells l a = Memory.background a := by
  simp [Memory.readCells, Memory.lookup_of_canonical ha h]

theorem Memory.readCells_consCell (a : Nat) (b : Byte) {rest : List Host.Cell} (h : Memory.Canonical (a + 1) rest) (c : Nat) :
    Memory.readCells (Memory.consCell a b rest) c = if c = a then b else Memory.readCells rest c := by
  simp only [Memory.consCell]
  split
  · next hb =>
    split
    · next hc => subst hc; rw [Memory.readCells_of_canonical (by omega) h, hb]
    · rfl
  · rw [Memory.readCells_cons]
    simp only [eq_comm]

theorem Memory.canonical_consCell {lo a : Nat} (b : Byte) {rest : List Host.Cell} (hlo : lo ≤ a) (ha : a < 4096)
    (h : Memory.Canonical (a + 1) rest) : Memory.Canonical lo (Memory.consCell a b rest) := by
  simp only [Memory.consCell]
  split
  · exact h.mono (by omega)
  · next hb => exact ⟨hlo, ha, hb, h⟩

/-- Inserting keeps the canonical form and changes what one address reads as. -/
theorem Memory.insert_spec {a : Nat} (b : Byte) (ha : a < 4096) :
    ∀ {lo : Nat} {l : List Host.Cell}, lo ≤ a → Memory.Canonical lo l →
      Memory.Canonical lo (Memory.insert l a b) ∧
        ∀ c, Memory.readCells (Memory.insert l a b) c = if c = a then b else Memory.readCells l c
  | lo, [], hlo, _ => ⟨Memory.canonical_consCell b hlo ha trivial, Memory.readCells_consCell a b trivial⟩
  | lo, d :: rest, hlo, ⟨h1, h2, h3, h4⟩ => by
    simp only [Memory.insert]
    split
    · have hd : Memory.Canonical (a + 1) (d :: rest) := ⟨by omega, h2, h3, h4⟩
      exact ⟨Memory.canonical_consCell b hlo ha hd, Memory.readCells_consCell a b hd⟩
    · split
      · next _ hda =>
        rw [← hda] at h4
        refine ⟨Memory.canonical_consCell b hlo ha h4, fun c => ?_⟩
        rw [Memory.readCells_consCell a b h4, Memory.readCells_cons]
        split
        · rfl
        · next hc => rw [if_neg (by omega)]
      · have ih := Memory.insert_spec b ha (lo := d.1 + 1) (l := rest) (by omega) h4
        refine ⟨⟨h1, h2, h3, ih.1⟩, fun c => ?_⟩
        rw [Memory.readCells_cons, Memory.readCells_cons, ih.2]
        split
        · next hdc => rw [if_neg (by omega)]
        · rfl

/-- A write keeps the canonical form. -/
theorem Memory.write_wf {m : Memory} (h : m.wf = true) {a : Nat} (ha : a < 4096) (b : Byte) : (m.write a b).wf = true := by
  rw [Memory.wf_iff_canonical] at *
  exact (Memory.insert_spec b ha (Nat.zero_le a) h).1

/-- Read after write: the address written reads as the byte, every other address as before. -/
theorem Memory.read_write {m : Memory} (h : m.wf = true) {a : Nat} (ha : a < 4096) (b : Byte) (c : Nat) :
    (m.write a b).read c = if c = a then b else m.read c := by
  rw [Memory.wf_iff_canonical] at h
  exact (Memory.insert_spec b ha (Nat.zero_le a) h).2 c

@[simp] theorem Memory.writeList_nil (m : Memory) (base : Nat) : m.writeList base [] = m := rfl

theorem Memory.writeList_cons (m : Memory) (base : Nat) (b : Byte) (bs : List Byte) :
    m.writeList base (b :: bs) = (m.write base b).writeList (base + 1) bs := rfl

/-- Writes at consecutive addresses keep the canonical form. -/
theorem Memory.writeList_wf {m : Memory} (h : m.wf = true) {base : Nat} {bs : List Byte} (hb : base + bs.length ≤ 4096) :
    (m.writeList base bs).wf = true := by
  induction bs generalizing m base with
  | nil => exact h
  | cons b bs ih =>
    simp only [List.length_cons] at hb
    exact ih (Memory.write_wf h (by omega) b) (by omega)

/-- What memory reads as after writes at consecutive addresses. -/
theorem Memory.read_writeList {m : Memory} (h : m.wf = true) {base : Nat} {bs : List Byte} (hb : base + bs.length ≤ 4096)
    (c : Nat) :
    (m.writeList base bs).read c =
      if base ≤ c ∧ c < base + bs.length then bs.getD (c - base) 0#8 else m.read c := by
  induction bs generalizing m base with
  | nil => simp
  | cons b bs ih =>
    simp only [List.length_cons] at hb
    rw [Memory.writeList_cons, ih (Memory.write_wf h (by omega) b) (by omega), Memory.read_write h (by omega)]
    simp only [List.length_cons]
    by_cases hc : c = base
    · subst hc
      rw [if_neg (by omega), if_pos rfl, if_pos (by omega)]
      simp
    · by_cases hin : base + 1 ≤ c ∧ c < base + 1 + bs.length
      · rw [if_pos hin, if_pos (by omega)]
        obtain ⟨k, rfl⟩ : ∃ k, c = base + 1 + k := ⟨c - (base + 1), by omega⟩
        rw [show base + 1 + k - base = k + 1 by omega, show base + 1 + k - (base + 1) = k by omega]
        simp
      · rw [if_neg hin, if_neg hc, if_neg (by omega)]

/-- A byte written is read back. -/
theorem Memory.read_writeList_at {m : Memory} (h : m.wf = true) {base : Nat} {bs : List Byte}
    (hb : base + bs.length ≤ 4096) {j : Nat} (hj : j < bs.length) : (m.writeList base bs).read (base + j) = bs.getD j 0#8 := by
  rw [Memory.read_writeList h hb, if_pos (by omega), Nat.add_sub_cancel_left]

/-- A byte outside the bytes written reads as before. -/
theorem Memory.read_writeList_outside {m : Memory} (h : m.wf = true) {base : Nat} {bs : List Byte}
    (hb : base + bs.length ≤ 4096) {a : Nat} (ha : a < base ∨ base + bs.length ≤ a) :
    (m.writeList base bs).read a = m.read a := by
  rw [Memory.read_writeList h hb, if_neg (by omega)]

@[simp] theorem Memory.readList_length (m : Memory) (base k : Nat) : (m.readList base k).length = k := by
  simp [Memory.readList]

theorem Memory.readList_getD (m : Memory) (base : Nat) {k j : Nat} (hj : j < k) :
    (m.readList base k).getD j 0#8 = m.read (base + j) := by
  simp [Memory.readList, List.getD_eq_getElem?_getD, hj]

/-- The range check of R49 in plain arithmetic. -/
theorem Memory.inRange_iff (base k : Nat) : Memory.inRange base k = true ↔ k = 0 ∨ base + k ≤ 4096 := by
  simp only [Memory.inRange, Bool.or_eq_true, decide_eq_true_eq]
  omega

theorem Memory.reset_wf : State.reset.mem.wf = true := by decide

end Sys2Proof.Machine
end

