-- ==== Sys2Proof/Laws/Ops.lean ====
section
/-! SUPPORT. One lemma per shared operation that says everything it can do; proofs cite these instead of unfolding. -/

namespace Sys2Proof.Machine

/-! ## General registers -/

theorem State.getV_eq (s : State) (x : RegIdx) : s.getV x = s.v[x.val] := rfl

/-- A register reads as the byte just written, every other one as before. -/
theorem State.getV_setV (s : State) (x : RegIdx) (b : Byte) (r : RegIdx) :
    (s.setV x b).getV r = if r = x then b else s.getV r := by
  simp only [State.getV_eq, State.setV_v]
  by_cases h : r = x
  · subst h; simp
  · rw [if_neg h]; exact Vector.getElem_set_ne _ _ fun hv => h (Fin.ext hv.symm)

@[simp] theorem State.getV_setV_self (s : State) (x : RegIdx) (b : Byte) : (s.setV x b).getV x = b := by
  simp [State.getV_setV]

@[simp] theorem State.getV_setPc (s : State) (a : Addr) (r : RegIdx) : (s.setPc a).getV r = s.getV r := rfl
@[simp] theorem State.getV_advance (s : State) (r : RegIdx) : s.advance.getV r = s.getV r := rfl
@[simp] theorem State.getV_setIndex (s : State) (a : Addr) (r : RegIdx) : (s.setIndex a).getV r = s.getV r := rfl

/-- The flag is the value that survives in `VF`, whatever the destination (R81). -/
theorem State.getV_setResultAndFlag (s : State) (x : RegIdx) (b : Byte) (f : Bool) (r : RegIdx) :
    (s.setResultAndFlag x b f).getV r = if r = regF then flagByte f else if r = x then b else s.getV r := by
  simp only [State.setResultAndFlag, State.getV_setV]

theorem flagByte_toNat (b : Bool) : (flagByte b).toNat = if b then 1 else 0 := by cases b <;> rfl

/-- A result with its flag: `VF` ends as the flag, another destination as the result, nothing else changes but the pc
(R81). -/
theorem State.setResultAndFlag_spec (s : State) (x : RegIdx) (b : Byte) (f : Bool) :
    ((s.setResultAndFlag x b f).advance.getV 15).toNat = (if f then 1 else 0) ∧
      (x ≠ 15 → (s.setResultAndFlag x b f).advance.getV x = b) ∧
      (∀ r, r ≠ x → r ≠ 15 → (s.setResultAndFlag x b f).advance.getV r = s.getV r) ∧
      (s.setResultAndFlag x b f).advance.pc = s.pc + 2 ∧ OnlyRegsAndPc s (s.setResultAndFlag x b f).advance := by
  refine ⟨?_, ?_, ?_, rfl, rfl, fun _ => rfl⟩
  · simp [State.getV_setResultAndFlag, regF, flagByte_toNat]
  · intro h; simp [State.getV_setResultAndFlag, regF, h]
  · intro r h h'; simp [State.getV_setResultAndFlag, regF, h, h']

/-- A result with no flag: the destination, no other register, nothing else but the pc. -/
theorem State.setV_advance_spec (s : State) (x : RegIdx) (b : Byte) :
    (s.setV x b).advance.getV x = b ∧ RegsSameBut x s (s.setV x b).advance ∧
      (s.setV x b).advance.pc = s.pc + 2 ∧ OnlyRegsAndPc s (s.setV x b).advance :=
  ⟨State.getV_setV_self .., fun r hr => by simp [State.getV_setV, hr], rfl, rfl, fun _ => rfl⟩

/-- A 12-bit target as a number (R110). -/
theorem target_toNat (nnn : BitVec 12) : (target nnn).toNat = nnn.toNat := by
  have := nnn.isLt
  simp only [target, BitVec.toNat_setWidth]; omega

/-- The target of `JP V0,nnn` as a number: the sum is not reduced (R115). -/
theorem targetV0_toNat (nnn : BitVec 12) (b : Byte) : (targetV0 nnn b).toNat = nnn.toNat + b.toNat := by
  have := nnn.isLt
  have := b.isLt
  simp only [targetV0, zext16, BitVec.toNat_add, BitVec.toNat_setWidth, target_toNat]; omega

/-- A block load writes registers and nothing else. -/
theorem State.setVList_eq (s : State) (start : Nat) (bs : List Byte) :
    s.setVList start bs = { s with v := (s.setVList start bs).v } := by
  induction bs generalizing s start with
  | nil => rfl
  | cons b bs ih => rw [State.setVList, ih]; rfl

/-- The registers after a block load that stays below `V[16]`. -/
theorem State.getV_setVList (s : State) (start : Nat) (bs : List Byte) (h : start + bs.length ≤ 16) (r : RegIdx) :
    (s.setVList start bs).getV r =
      if start ≤ r.val ∧ r.val < start + bs.length then bs.getD (r.val - start) 0#8 else s.getV r := by
  induction bs generalizing s start with
  | nil => simp [State.setVList]
  | cons b bs ih =>
    simp only [List.length_cons] at h
    rw [State.setVList, ih _ _ (by omega), State.getV_setV]
    simp only [List.length_cons, Fin.ext_iff, Fin.val_ofNat, Nat.mod_eq_of_lt (show start < 16 by omega)]
    by_cases hc : r.val = start
    · rw [if_neg (by omega), if_pos hc, if_pos (by omega), hc]; simp
    · by_cases hin : start + 1 ≤ r.val ∧ r.val < start + 1 + bs.length
      · rw [if_pos hin, if_pos (by omega)]
        obtain ⟨k, hk⟩ : ∃ k, r.val = start + 1 + k := ⟨r.val - (start + 1), by omega⟩
        rw [hk, show start + 1 + k - start = k + 1 by omega, show start + 1 + k - (start + 1) = k by omega]
        simp
      · rw [if_neg hin, if_neg hc, if_neg (by omega)]

@[simp] theorem State.getVList_length (s : State) (x : RegIdx) : (s.getVList x).length = x.val + 1 := by
  simp [State.getVList]

theorem State.getVList_getD (s : State) (x r : RegIdx) (h : r.val ≤ x.val) :
    (s.getVList x).getD r.val 0#8 = s.getV r := by
  have hr : r.val < x.val + 1 := by omega
  simp [State.getVList, List.getD_eq_getElem?_getD, State.getV_eq, hr]

/-! ## Data accesses -/

/-- A block read answers the bytes, or nothing exactly when the last would lie above 4095 (R49). -/
theorem State.loadBytes_cases (s : State) (base k : Nat) :
    ((k = 0 ∨ base + k ≤ 4096) ∧ s.loadBytes base k = some (s.mem.readList base k)) ∨
      ((k ≠ 0 ∧ 4096 < base + k) ∧ s.loadBytes base k = none) := by
  have h := Memory.inRange_iff base k
  by_cases hr : Memory.inRange base k = true
  · exact .inl ⟨h.mp hr, by simp [State.loadBytes, hr]⟩
  · refine .inr ⟨?_, by simp [State.loadBytes, hr]⟩
    have := mt h.mpr hr
    omega

/-- A block write writes the bytes and nothing else, or does nothing exactly when the last would lie above 4095 (R49). -/
theorem State.storeBytes_cases (s : State) (base : Nat) (bs : List Byte) :
    ((bs.length = 0 ∨ base + bs.length ≤ 4096) ∧
        s.storeBytes base bs = some { s with mem := s.mem.writeList base bs }) ∨
      ((bs.length ≠ 0 ∧ 4096 < base + bs.length) ∧ s.storeBytes base bs = none) := by
  have h := Memory.inRange_iff base bs.length
  by_cases hr : Memory.inRange base bs.length = true
  · exact .inl ⟨h.mp hr, by simp [State.storeBytes, hr]⟩
  · refine .inr ⟨?_, by simp [State.storeBytes, hr]⟩
    have := mt h.mpr hr
    omega

@[simp] theorem bcdDigits_length (b : Byte) : (bcdDigits b).length = 3 := by simp [bcdDigits]

/-! ## Fetch -/

/-- A fetch answers the word at `pc`, or nothing exactly when `pc > 4094` (R43, R50). -/
theorem State.fetch_cases (s : State) :
    (s.pc.toNat ≤ 4094 ∧
        s.fetch = some (wordOfBytes (s.mem.read s.pc.toNat) (s.mem.read (s.pc.toNat + 1)))) ∨
      (4094 < s.pc.toNat ∧ s.fetch = none) := by
  by_cases h : s.pc.toNat > 4094
  · exact .inr ⟨h, by simp [State.fetch, h]⟩
  · exact .inl ⟨by omega, by simp [State.fetch, h]⟩

/-! ## Call stack -/

/-- A push stores at `stack[sp]` and counts up, or answers nothing exactly when the stack is full (R14). -/
theorem State.push_cases (s : State) (a : Addr) :
    (∃ h : s.sp.val < 16, s.push a =
        some { s with stack := s.stack.set s.sp.val a h, sp := ⟨s.sp.val + 1, by omega⟩ }) ∨
      (s.sp.val = 16 ∧ s.push a = none) := by
  by_cases h : s.sp.val < 16
  · exact .inl ⟨h, by simp [State.push, h]⟩
  · exact .inr ⟨by omega, by simp [State.push, h]⟩

/-- A pop counts down and answers the entry there, or nothing exactly when the stack is empty (R14). -/
theorem State.pop_cases (s : State) :
    (∃ k : Fin 16, s.sp.val = k.val + 1 ∧ s.pop = some (s.stack[k], { s with sp := k.castSucc })) ∨
      (s.sp.val = 0 ∧ s.pop = none) := by
  by_cases h : s.sp.val = 0
  · exact .inr ⟨h, by simp [State.pop, h]⟩
  · refine .inl ⟨⟨s.sp.val - 1, by omega⟩, by simp; omega, ?_⟩
    simp only [State.pop, h, dif_neg, not_false_eq_true]
    rfl

/-! ## Framebuffer -/

/-- Toggling flips the one pixel. -/
theorem Framebuffer.pixel_toggle (fb : Framebuffer) (r r' : Fin 32) (q q' : Fin 64) :
    Framebuffer.pixel (Framebuffer.toggle fb r q) r' q' =
      (Framebuffer.pixel fb r' q' ^^ decide (r = r' ∧ q = q')) := by
  simp only [Framebuffer.pixel, Framebuffer.toggle, Fin.getElem_fin]
  by_cases hr : r = r'
  · subst hr
    simp [Fin.ext_iff, eq_comm]
  · have : r.val ≠ r'.val := fun h => hr (Fin.ext h)
    simp [this, hr]

@[simp] theorem Framebuffer.pixel_blank (r : Fin 32) (q : Fin 64) : Framebuffer.pixel Framebuffer.blank r q = false := by
  simp [Framebuffer.pixel, Framebuffer.blank]

/-! ## Timer unit -/

/-- One decrement with the floor at 0, as a number (R176). -/
theorem countDown_toNat (b : Byte) : (countDown b).toNat = b.toNat - 1 := by
  simp only [countDown]
  split
  · have hb : 1#8 ≤ b := by simp [BitVec.le_def]; omega
    rw [BitVec.toNat_sub_of_le hb]; rfl
  · omega

theorem countDown_eq (b : Byte) : countDown b = BitVec.ofNat 8 (b.toNat - 1) := by
  rw [← countDown_toNat]; simp

/-! ## Keys -/

/-- The lowest key is pressed and no key below it is; none is answered exactly when no key is pressed (R152). -/
theorem lowestKey_cases (p : KeyLines) :
    (∃ k : Fin 16, lowestKey p = some k ∧ p.getLsbD k = true ∧ ∀ j : Fin 16, j < k → p.getLsbD j = false) ∨
      (lowestKey p = none ∧ p = 0#16) := by
  cases h : lowestKey p with
  | some k =>
    refine .inl ⟨k, rfl, ?_, ?_⟩
    · simpa using List.find?_some h
    · intro j hj
      rw [lowestKey, List.find?_eq_some_iff_getElem] at h
      obtain ⟨_, i, hi, hik, hlt⟩ := h
      have hki : k.val = i := by rw [← hik]; simp
      have := hlt j.val (by have := Fin.lt_def.mp hj; omega)
      simpa using this
  | none =>
    refine .inr ⟨rfl, ?_⟩
    rw [lowestKey, List.find?_eq_none] at h
    refine BitVec.eq_of_getLsbD_eq fun i hi => ?_
    simpa using h ⟨i, hi⟩ (List.mem_finRange _)

theorem pressed_getLsbD (s : State) (k : Fin 16) :
    (pressed s).getLsbD k = (s.keys.getLsbD k && !s.keysPrev.getLsbD k) := by
  simp [pressed]

/-! ## Faults -/

/-- Raising a fault takes it (R161). -/
theorem State.raise_faultTaken (s : State) (cause : FaultCause) (op : Word) : FaultTaken s cause op (s.raise cause op) :=
  ⟨rfl, rfl, rfl, rfl, rfl⟩

theorem faultOf_eq (i : Instr) (cause : FaultCause) (s : State) : faultOf i cause s = .next (s.raise cause (encode i)) := rfl

end Sys2Proof.Machine
end

