-- ==== Sys2Proof/Laws/Exec.lean ====
section
/-! SUPPORT. One lemma for each instruction that can fault or wait: every outcome it has, with the condition of each. The
other meanings are one equation each and are cited by `rfl`. -/

namespace Sys2Proof.Machine

/-- `RET` (R112). -/
theorem exec_ret_cases (s : State) :
    (∃ k : Fin 16, s.sp.val = k.val + 1 ∧ exec .ret s = .next ({ s with sp := k.castSucc }.setPc s.stack[k])) ∨
      (s.sp.val = 0 ∧ exec .ret s = .next (s.raise .stackUnderflow (encode .ret))) := by
  rcases s.pop_cases with ⟨k, hk, h⟩ | ⟨hk, h⟩
  · exact .inl ⟨k, hk, by simp only [exec, execRet, h]⟩
  · exact .inr ⟨hk, by simp only [exec, execRet, h, faultOf_eq]⟩

/-- `CALL nnn` (R114). -/
theorem exec_call_cases (nnn : BitVec 12) (s : State) :
    (∃ h : s.sp.val < 16, exec (.call nnn) s =
        .next ({ s with stack := s.stack.set s.sp.val (s.pc + 2#16) h, sp := ⟨s.sp.val + 1, by omega⟩ }.setPc
          (target nnn))) ∨
      (s.sp.val = 16 ∧ exec (.call nnn) s = .next (s.raise .stackOverflow (encode (.call nnn)))) := by
  rcases s.push_cases (s.pc + 2#16) with ⟨hk, h⟩ | ⟨hk, h⟩
  · exact .inl ⟨hk, by simp only [exec, execCall, h]⟩
  · exact .inr ⟨hk, by simp only [exec, execCall, h, faultOf_eq]⟩

/-- `SKP Vx` and `SKNP Vx` test the level of the key, or find no such key (R150, R151). -/
theorem keyLevel_cases (s : State) (b : Byte) :
    (b.toNat ≤ 15 ∧ keyLevel s b = some (s.keys.getLsbD b.toNat)) ∨ (15 < b.toNat ∧ keyLevel s b = none) := by
  by_cases h : b.toNat > 15
  · exact .inr ⟨h, by simp [keyLevel, h]⟩
  · exact .inl ⟨by omega, by simp [keyLevel, h]⟩

/-- `SKP Vx` (R150). -/
theorem exec_skp_cases (x : RegIdx) (s : State) :
    ((s.getV x).toNat ≤ 15 ∧ exec (.skp x) s = .next (s.skipIf (s.keys.getLsbD (s.getV x).toNat))) ∨
      (15 < (s.getV x).toNat ∧ exec (.skp x) s = .next (s.raise .invalidKeyIndex (encode (.skp x)))) := by
  rcases keyLevel_cases s (s.getV x) with ⟨hk, h⟩ | ⟨hk, h⟩
  · exact .inl ⟨hk, by simp only [exec, execSkp, h]⟩
  · exact .inr ⟨hk, by simp only [exec, execSkp, h, faultOf_eq]⟩

/-- `SKNP Vx` (R151). -/
theorem exec_sknp_cases (x : RegIdx) (s : State) :
    ((s.getV x).toNat ≤ 15 ∧ exec (.sknp x) s = .next (s.skipIf (!s.keys.getLsbD (s.getV x).toNat))) ∨
      (15 < (s.getV x).toNat ∧ exec (.sknp x) s = .next (s.raise .invalidKeyIndex (encode (.sknp x)))) := by
  rcases keyLevel_cases s (s.getV x) with ⟨hk, h⟩ | ⟨hk, h⟩
  · exact .inl ⟨hk, by simp only [exec, execSknp, h]⟩
  · exact .inr ⟨hk, by simp only [exec, execSknp, h, faultOf_eq]⟩

/-- `LD Vx,K` (R152): the lowest key pressed, or a waiting cycle. -/
theorem exec_ldVxK_cases (x : RegIdx) (s : State) :
    (∃ k : Fin 16, (pressed s).getLsbD k = true ∧ (∀ j : Fin 16, j < k → (pressed s).getLsbD j = false) ∧
        exec (.ldVxK x) s = .next (s.setV x (BitVec.ofNat 8 k.val)).advance) ∨
      (pressed s = 0#16 ∧ exec (.ldVxK x) s = .next s) := by
  rcases lowestKey_cases (pressed s) with ⟨k, h, h1, h2⟩ | ⟨h, h1⟩
  · exact .inl ⟨k, h1, h2, by simp only [exec, execLdVxK, h]⟩
  · exact .inr ⟨h1, by simp only [exec, execLdVxK, h]⟩

/-- `LD F,Vx` (R132). -/
theorem exec_ldF_cases (x : RegIdx) (s : State) :
    ((s.getV x).toNat ≤ 15 ∧
        exec (.ldF x) s = .next (s.setIndex (BitVec.ofNat 16 (5 * (s.getV x).toNat))).advance) ∨
      (15 < (s.getV x).toNat ∧ exec (.ldF x) s = .next (s.raise .invalidGlyphIndex (encode (.ldF x)))) := by
  by_cases h : (s.getV x).toNat > 15
  · exact .inr ⟨h, by simp only [exec, execLdF, glyphAddress, h, if_true, faultOf_eq]⟩
  · exact .inl ⟨by omega, by simp only [exec, execLdF, glyphAddress, h, if_false, Config.fontBase, Nat.zero_add]⟩

/-- `LD B,Vx` (R133). -/
theorem exec_ldB_cases (x : RegIdx) (s : State) :
    (s.index.toNat ≤ 4093 ∧ exec (.ldB x) s =
        .next { s with mem := s.mem.writeList s.index.toNat (bcdDigits (s.getV x)) }.advance) ∨
      (4093 < s.index.toNat ∧ exec (.ldB x) s = .next (s.raise .memoryOutOfRange (encode (.ldB x)))) := by
  rcases s.storeBytes_cases s.index.toNat (bcdDigits (s.getV x)) with ⟨hk, h⟩ | ⟨hk, h⟩ <;> rw [bcdDigits_length] at hk
  · exact .inl ⟨by omega, by simp only [exec, execLdB, h]⟩
  · exact .inr ⟨by omega, by simp only [exec, execLdB, h, faultOf_eq]⟩

/-- `LD [I],Vx` (R134). -/
theorem exec_storeRegs_cases (x : RegIdx) (s : State) :
    (s.index.toNat + x.val ≤ 4095 ∧ exec (.storeRegs x) s =
        .next { s with mem := s.mem.writeList s.index.toNat (s.getVList x) }.advance) ∨
      (4095 < s.index.toNat + x.val ∧
        exec (.storeRegs x) s = .next (s.raise .memoryOutOfRange (encode (.storeRegs x)))) := by
  rcases s.storeBytes_cases s.index.toNat (s.getVList x) with ⟨hk, h⟩ | ⟨hk, h⟩ <;> rw [State.getVList_length] at hk
  · exact .inl ⟨by omega, by simp only [exec, execStoreRegs, h]⟩
  · exact .inr ⟨by omega, by simp only [exec, execStoreRegs, h, faultOf_eq]⟩

/-- `LD Vx,[I]` (R135). -/
theorem exec_loadRegs_cases (x : RegIdx) (s : State) :
    (s.index.toNat + x.val ≤ 4095 ∧ exec (.loadRegs x) s =
        .next (s.setVList 0 (s.mem.readList s.index.toNat (x.val + 1))).advance) ∨
      (4095 < s.index.toNat + x.val ∧
        exec (.loadRegs x) s = .next (s.raise .memoryOutOfRange (encode (.loadRegs x)))) := by
  rcases s.loadBytes_cases s.index.toNat (x.val + 1) with ⟨hk, h⟩ | ⟨hk, h⟩
  · exact .inl ⟨by omega, by simp only [exec, execLoadRegs, h]⟩
  · exact .inr ⟨by omega, by simp only [exec, execLoadRegs, h, faultOf_eq]⟩

/-- What `DRW` draws: the framebuffer after it and the collision. -/
def drawn (x y : RegIdx) (n : Fin 16) (s : State) : Framebuffer × Bool :=
  togglePixels (spritePixels (s.getV x).toNat (s.getV y).toNat 0 (s.mem.readList s.index.toNat n.val)) (s.fb, false)

/-- `DRW Vx,Vy,n` (R141). -/
theorem exec_drw_cases (x y : RegIdx) (n : Fin 16) (s : State) :
    ((n.val = 0 ∨ s.index.toNat + n.val ≤ 4096) ∧ exec (.drw x y n) s =
        .next (({ s with fb := (drawn x y n s).1 }).setV regF (flagByte (drawn x y n s).2)).advance) ∨
      ((n.val ≠ 0 ∧ 4096 < s.index.toNat + n.val) ∧
        exec (.drw x y n) s = .next (s.raise .memoryOutOfRange (encode (.drw x y n)))) := by
  rcases s.loadBytes_cases s.index.toNat n.val with ⟨hk, h⟩ | ⟨hk, h⟩
  · exact .inl ⟨hk, by simp only [exec, execDrw, h, drawn]⟩
  · exact .inr ⟨hk, by simp only [exec, execDrw, h, faultOf_eq]⟩

/-- Everything an instruction can do: raise one fault with none of its effects, or answer a next state in which nothing
but the registers, the pc, `I`, the call stack, the timers' counters, the framebuffer and memory differs. -/
theorem exec_cases (i : Instr) (s : State) :
    (∃ cause, cause ≠ .none ∧ exec i s = .next (s.raise cause (encode i))) ∨
      ∃ t, exec i s = .next t ∧
        t = { s with v := t.v, pc := t.pc, index := t.index, stack := t.stack, sp := t.sp, dt := t.dt, st := t.st,
                     fb := t.fb, mem := t.mem } := by
  cases i
  case ret =>
    rcases exec_ret_cases s with ⟨_, _, h⟩ | ⟨_, h⟩
    exacts [.inr ⟨_, h, rfl⟩, .inl ⟨_, by decide, h⟩]
  case call nnn =>
    rcases exec_call_cases nnn s with ⟨_, h⟩ | ⟨_, h⟩
    exacts [.inr ⟨_, h, rfl⟩, .inl ⟨_, by decide, h⟩]
  case drw x y n =>
    rcases exec_drw_cases x y n s with ⟨_, h⟩ | ⟨_, h⟩
    exacts [.inr ⟨_, h, rfl⟩, .inl ⟨_, by decide, h⟩]
  case skp x =>
    rcases exec_skp_cases x s with ⟨_, h⟩ | ⟨_, h⟩
    exacts [.inr ⟨_, h, rfl⟩, .inl ⟨_, by decide, h⟩]
  case sknp x =>
    rcases exec_sknp_cases x s with ⟨_, h⟩ | ⟨_, h⟩
    exacts [.inr ⟨_, h, rfl⟩, .inl ⟨_, by decide, h⟩]
  case ldVxK x =>
    rcases exec_ldVxK_cases x s with ⟨_, _, _, h⟩ | ⟨_, h⟩
    exacts [.inr ⟨_, h, rfl⟩, .inr ⟨_, h, rfl⟩]
  case ldF x =>
    rcases exec_ldF_cases x s with ⟨_, h⟩ | ⟨_, h⟩
    exacts [.inr ⟨_, h, rfl⟩, .inl ⟨_, by decide, h⟩]
  case ldB x =>
    rcases exec_ldB_cases x s with ⟨_, h⟩ | ⟨_, h⟩
    exacts [.inr ⟨_, h, rfl⟩, .inl ⟨_, by decide, h⟩]
  case storeRegs x =>
    rcases exec_storeRegs_cases x s with ⟨_, h⟩ | ⟨_, h⟩
    exacts [.inr ⟨_, h, rfl⟩, .inl ⟨_, by decide, h⟩]
  case loadRegs x =>
    rcases exec_loadRegs_cases x s with ⟨_, h⟩ | ⟨_, h⟩
    · exact .inr ⟨_, h, by rw [State.setVList_eq]; rfl⟩
    · exact .inl ⟨_, by decide, h⟩
  all_goals exact .inr ⟨_, rfl, rfl⟩

/-- An instruction always answers a next state: a faulting one answers the state with the fault taken. -/
theorem exec_next (i : Instr) (s : State) : ∃ t, exec i s = .next t := by
  rcases exec_cases i s with ⟨c, -, h⟩ | ⟨t, h, -⟩
  exacts [⟨_, h⟩, ⟨t, h⟩]

/-- What no instruction writes: the key samples, the timer timestamp, the parameters, and the model's own fields. -/
theorem exec_keeps {i : Instr} {s t : State} (h : exec i s = .next t) :
    t.keys = s.keys ∧ t.keysPrev = s.keysPrev ∧ t.lastUpdate = s.lastUpdate ∧ t.clock = s.clock ∧
      t.inputs = s.inputs ∧ t.cycles = s.cycles ∧ t.rnd = s.rnd ∧ t.shiftLegacy = s.shiftLegacy ∧
      t.tickPeriod = s.tickPeriod := by
  rcases exec_cases i s with ⟨c, -, he⟩ | ⟨u, he, hu⟩ <;> rw [h] at he <;> cases he
  · simp
  · rw [hu]; simp

end Sys2Proof.Machine
end

