-- ==== Sys2Proof/Laws/Cycle.lean ====
section
/-! SUPPORT. Said once: what a cycle can do, and what the part before the fetch does to each field. -/

namespace Sys2Proof.Machine

/-! ## Before the fetch -/

/-- The gate of the timer unit in this cycle (R176). -/
abbrev State.tick (s : State) : Prop := s.lastUpdate + s.tickPeriod ≤ s.nextInput.now

/-- Steps 2 and 3 of a cycle, field by field (R25, R176, R178). -/
theorem State.beforeFetch_eq (s : State) :
    s.beforeFetch =
      { s with
        dt := if s.tick then countDown s.dt else s.dt
        st := if s.tick then countDown s.st else s.st
        lastUpdate := if s.tick then s.nextInput.now else s.lastUpdate
        keysPrev := s.keys
        keys := s.nextInput.keyIn
        clock := s.nextInput.now
        rnd := s.nextInput.rnd
        inputs := s.inputs.tail
        cycles := s.cycles + 1 } := by
  by_cases h : s.tick
  · have h' : s.takeInput.lastUpdate + s.takeInput.tickPeriod ≤ s.nextInput.now := h
    simp only [State.beforeFetch, State.timerAdvance, if_pos h', if_pos h]; rfl
  · have h' : ¬ s.takeInput.lastUpdate + s.takeInput.tickPeriod ≤ s.nextInput.now := h
    simp only [State.beforeFetch, State.timerAdvance, if_neg h', if_neg h]; rfl

@[simp] theorem State.beforeFetch_v (s : State) : s.beforeFetch.v = s.v := by rw [State.beforeFetch_eq]
@[simp] theorem State.beforeFetch_pc (s : State) : s.beforeFetch.pc = s.pc := by rw [State.beforeFetch_eq]
@[simp] theorem State.beforeFetch_index (s : State) : s.beforeFetch.index = s.index := by rw [State.beforeFetch_eq]
@[simp] theorem State.beforeFetch_stack (s : State) : s.beforeFetch.stack = s.stack := by rw [State.beforeFetch_eq]
@[simp] theorem State.beforeFetch_sp (s : State) : s.beforeFetch.sp = s.sp := by rw [State.beforeFetch_eq]
@[simp] theorem State.beforeFetch_dt (s : State) :
    s.beforeFetch.dt = if s.tick then countDown s.dt else s.dt := by rw [State.beforeFetch_eq]
@[simp] theorem State.beforeFetch_st (s : State) :
    s.beforeFetch.st = if s.tick then countDown s.st else s.st := by rw [State.beforeFetch_eq]
@[simp] theorem State.beforeFetch_lastUpdate (s : State) :
    s.beforeFetch.lastUpdate = if s.tick then s.nextInput.now else s.lastUpdate := by rw [State.beforeFetch_eq]
@[simp] theorem State.beforeFetch_fb (s : State) : s.beforeFetch.fb = s.fb := by rw [State.beforeFetch_eq]
@[simp] theorem State.beforeFetch_keys (s : State) : s.beforeFetch.keys = s.nextInput.keyIn := by
  rw [State.beforeFetch_eq]
@[simp] theorem State.beforeFetch_keysPrev (s : State) : s.beforeFetch.keysPrev = s.keys := by rw [State.beforeFetch_eq]
@[simp] theorem State.beforeFetch_halted (s : State) : s.beforeFetch.halted = s.halted := by rw [State.beforeFetch_eq]
@[simp] theorem State.beforeFetch_faultCause (s : State) : s.beforeFetch.faultCause = s.faultCause := by
  rw [State.beforeFetch_eq]
@[simp] theorem State.beforeFetch_faultPc (s : State) : s.beforeFetch.faultPc = s.faultPc := by rw [State.beforeFetch_eq]
@[simp] theorem State.beforeFetch_faultOpcode (s : State) : s.beforeFetch.faultOpcode = s.faultOpcode := by
  rw [State.beforeFetch_eq]
@[simp] theorem State.beforeFetch_mem (s : State) : s.beforeFetch.mem = s.mem := by rw [State.beforeFetch_eq]
@[simp] theorem State.beforeFetch_shiftLegacy (s : State) : s.beforeFetch.shiftLegacy = s.shiftLegacy := by
  rw [State.beforeFetch_eq]
@[simp] theorem State.beforeFetch_tickPeriod (s : State) : s.beforeFetch.tickPeriod = s.tickPeriod := by
  rw [State.beforeFetch_eq]
@[simp] theorem State.beforeFetch_clock (s : State) : s.beforeFetch.clock = s.nextInput.now := by
  rw [State.beforeFetch_eq]
@[simp] theorem State.beforeFetch_fetch (s : State) : s.beforeFetch.fetch = s.fetch := by
  simp [State.fetch]
@[simp] theorem State.beforeFetch_getV (s : State) (r : RegIdx) : s.beforeFetch.getV r = s.getV r := by
  simp [State.getV_eq]

/-- The state before the fetch is the one the statements describe. -/
theorem timersAndKeysDone_iff (s u : State) : TimersAndKeysDone s u ↔ u = s.beforeFetch := by
  rw [TimersAndKeysDone, State.beforeFetch_eq]; simp only [countDown_eq]

/-! ## One cycle -/

/-- Everything a cycle can do (R25): nothing on a halted machine; the external stop; a refusal of a clock that goes
backwards; a fetch out of range; an invalid word; or the fetched word's instruction. -/
theorem step_cases (s : State) :
    (s.halted = true ∧ step s = .next s) ∨
    (s.halted = false ∧ s.nextInput.stopReq = true ∧ step s = .next s.takeInput.stop) ∨
    (s.halted = false ∧ s.nextInput.stopReq = false ∧ s.nextInput.now < s.clock ∧
      step s = .refused .clockWentBackwards) ∨
    (s.halted = false ∧ s.nextInput.stopReq = false ∧ s.clock ≤ s.nextInput.now ∧
      ((4094 < s.pc.toNat ∧
          step s = .next (s.beforeFetch.raise .fetchOutOfRange (Config.freeOpcode (s.cycles + 1)))) ∨
        (∃ op e, s.pc.toNat ≤ 4094 ∧ s.fetch = some op ∧ decodeWord op = .error e ∧
          step s = .next (s.beforeFetch.raise .invalidOpcode op)) ∨
        (∃ op i, s.pc.toNat ≤ 4094 ∧ s.fetch = some op ∧ decodeWord op = .ok i ∧
          step s = exec i s.beforeFetch))) := by
  cases hh : s.halted
  · cases hs : s.nextInput.stopReq
    · by_cases hc : s.nextInput.now < s.clock
      · exact .inr (.inr (.inl ⟨rfl, rfl, hc, by simp [step, cycle, hh, hs, hc]⟩))
      · have hstep : step s = fetchDecodeExecute s.beforeFetch := by simp [step, cycle, hh, hs, hc]
        have hcyc : s.beforeFetch.cycles = s.cycles + 1 := by rw [State.beforeFetch_eq]
        refine .inr (.inr (.inr ⟨rfl, rfl, by omega, ?_⟩))
        rcases s.fetch_cases with ⟨hp, hf⟩ | ⟨hp, hf⟩
        · refine .inr ?_
          cases hd : decodeWord (wordOfBytes (s.mem.read s.pc.toNat) (s.mem.read (s.pc.toNat + 1))) with
          | error e => exact .inl ⟨_, e, hp, hf, hd, by simp [hstep, fetchDecodeExecute, hf, hd]⟩
          | ok i => exact .inr ⟨_, i, hp, hf, hd, by simp [hstep, fetchDecodeExecute, hf, hd]⟩
        · exact .inl ⟨hp, by simp [hstep, fetchDecodeExecute, hf, hcyc]⟩
    · exact .inr (.inl ⟨rfl, rfl, by simp [step, cycle, hh, hs]⟩)
  · exact .inl ⟨rfl, by simp [step, cycle, hh]⟩

/-- A step answers a next state or refuses a clock that goes backwards (R28, R199). -/
theorem step_next_or_refused (s : State) : (∃ t, step s = .next t) ∨ step s = .refused .clockWentBackwards := by
  rcases step_cases s with ⟨_, h⟩ | ⟨_, _, h⟩ | ⟨_, _, _, h⟩ | ⟨_, _, _, ⟨_, h⟩ | ⟨_, _, _, _, _, h⟩ | ⟨_, i, _, _, _, h⟩⟩
  · exact .inl ⟨_, h⟩
  · exact .inl ⟨_, h⟩
  · exact .inr h
  · exact .inl ⟨_, h⟩
  · exact .inl ⟨_, h⟩
  · rw [h]; exact .inl (exec_next i _)

/-- A step to a next state changes nothing, stops, takes a fault of the fetch or the decode, or executes the fetched
instruction. -/
theorem step_next_cases {s t : State} (h : step s = .next t) :
    (t = s ∨ t = s.takeInput.stop ∨ ∃ c op, t = s.beforeFetch.raise c op) ∨
      ∃ i, s.Fetches i ∧ exec i s.beforeFetch = .next t := by
  rcases step_cases s with
    ⟨_, g⟩ | ⟨_, _, g⟩ | ⟨_, _, _, g⟩ | ⟨_, _, _, ⟨_, g⟩ | ⟨op, _, _, _, _, g⟩ | ⟨op, i, _, hf, hd, g⟩⟩ <;> rw [h] at g
  · cases g; exact .inl (.inl rfl)
  · cases g; exact .inl (.inr (.inl rfl))
  · cases g
  · cases g; exact .inl (.inr (.inr ⟨_, _, rfl⟩))
  · cases g; exact .inl (.inr (.inr ⟨_, _, rfl⟩))
  · exact .inr ⟨i, ⟨op, hf, hd⟩, g.symm⟩

end Sys2Proof.Machine
end

