-- ==== Sys2Proof/Laws/Decode.lean ====
section
/-! SUPPORT. The fields of an encoded word are the fields it was encoded from, and a word is the join of its fields. -/

namespace Sys2Proof

theorem nibble_toFin (x : Fin 16) : (nibble x).toFin = x := rfl
theorem nibble_of_toFin (b : BitVec 4) : nibble b.toFin = b := rfl
@[simp] theorem nibble_toNat (x : Fin 16) : (nibble x).toNat = x.val := rfl

/-! ## Words as numbers -/

theorem append_toNat {m n : Nat} (a : BitVec m) (b : BitVec n) : (a ++ b).toNat = a.toNat * 2 ^ n + b.toNat := by
  rw [BitVec.toNat_append, ← Nat.shiftLeft_add_eq_or_of_lt b.isLt, Nat.shiftLeft_eq]

theorem encNnn_toNat (a : BitVec 4) (nnn : BitVec 12) : (encNnn a nnn).toNat = 4096 * a.toNat + nnn.toNat := by
  have := append_toNat a nnn
  simp only [encNnn]; omega

theorem encXkk_toNat (a : BitVec 4) (x : RegIdx) (kk : Byte) :
    (encXkk a x kk).toNat = 4096 * a.toNat + 256 * x.val + kk.toNat := by
  have h1 := append_toNat a (nibble x ++ kk)
  have h2 := append_toNat (nibble x) kk
  rw [nibble_toNat] at h2
  simp only [encXkk]; omega

theorem encXyd_toNat (a : BitVec 4) (x y : RegIdx) (d : BitVec 4) :
    (encXyd a x y d).toNat = 4096 * a.toNat + 256 * x.val + 16 * y.val + d.toNat := by
  have h1 := append_toNat a (nibble x ++ (nibble y ++ d))
  have h2 := append_toNat (nibble x) (nibble y ++ d)
  have h3 := append_toNat (nibble y) d
  rw [nibble_toNat] at h2 h3
  simp only [encXyd]; omega

theorem fieldA_toNat (op : Word) : (fieldA op).toNat = op.toNat / 4096 := by
  have := op.isLt
  simp only [fieldA, BitVec.extractLsb'_toNat, Nat.shiftRight_eq_div_pow]; omega

theorem fieldX_val (op : Word) : (fieldX op).val = op.toNat / 256 % 16 := by
  change (op.extractLsb' 8 4).toNat = _
  simp only [BitVec.extractLsb'_toNat, Nat.shiftRight_eq_div_pow]

theorem fieldY_val (op : Word) : (fieldY op).val = op.toNat / 16 % 16 := by
  change (op.extractLsb' 4 4).toNat = _
  simp only [BitVec.extractLsb'_toNat, Nat.shiftRight_eq_div_pow]

theorem fieldN_val (op : Word) : (fieldN op).val = op.toNat % 16 := by
  change (op.extractLsb' 0 4).toNat = _
  simp only [BitVec.extractLsb'_toNat, Nat.shiftRight_eq_div_pow]; omega

theorem fieldD_toNat (op : Word) : (fieldD op).toNat = op.toNat % 16 := by
  simp only [fieldD, BitVec.extractLsb'_toNat, Nat.shiftRight_eq_div_pow]; omega

theorem fieldKk_toNat (op : Word) : (fieldKk op).toNat = op.toNat % 256 := by
  simp only [fieldKk, BitVec.extractLsb'_toNat, Nat.shiftRight_eq_div_pow]; omega

theorem fieldNnn_toNat (op : Word) : (fieldNnn op).toNat = op.toNat % 4096 := by
  simp only [fieldNnn, BitVec.extractLsb'_toNat, Nat.shiftRight_eq_div_pow]; omega

/-! ## Fields of an encoded word -/

@[simp] theorem fieldA_encNnn (a : BitVec 4) (nnn : BitVec 12) : fieldA (encNnn a nnn) = a := by
  apply BitVec.eq_of_toNat_eq; have := nnn.isLt; rw [fieldA_toNat, encNnn_toNat]; omega
@[simp] theorem fieldNnn_encNnn (a : BitVec 4) (nnn : BitVec 12) : fieldNnn (encNnn a nnn) = nnn := by
  apply BitVec.eq_of_toNat_eq; have := nnn.isLt; rw [fieldNnn_toNat, encNnn_toNat]; omega
@[simp] theorem fieldA_encXkk (a : BitVec 4) (x : RegIdx) (kk : Byte) : fieldA (encXkk a x kk) = a := by
  apply BitVec.eq_of_toNat_eq; have := kk.isLt; have := x.isLt; rw [fieldA_toNat, encXkk_toNat]; omega
@[simp] theorem fieldX_encXkk (a : BitVec 4) (x : RegIdx) (kk : Byte) : fieldX (encXkk a x kk) = x := by
  apply Fin.ext; have := kk.isLt; have := x.isLt; rw [fieldX_val, encXkk_toNat]; omega
@[simp] theorem fieldKk_encXkk (a : BitVec 4) (x : RegIdx) (kk : Byte) : fieldKk (encXkk a x kk) = kk := by
  apply BitVec.eq_of_toNat_eq; have := kk.isLt; rw [fieldKk_toNat, encXkk_toNat]; omega
@[simp] theorem fieldA_encXyd (a : BitVec 4) (x y : RegIdx) (d : BitVec 4) : fieldA (encXyd a x y d) = a := by
  apply BitVec.eq_of_toNat_eq; have := d.isLt; have := x.isLt; have := y.isLt; rw [fieldA_toNat, encXyd_toNat]; omega
@[simp] theorem fieldX_encXyd (a : BitVec 4) (x y : RegIdx) (d : BitVec 4) : fieldX (encXyd a x y d) = x := by
  apply Fin.ext; have := d.isLt; have := x.isLt; have := y.isLt; rw [fieldX_val, encXyd_toNat]; omega
@[simp] theorem fieldY_encXyd (a : BitVec 4) (x y : RegIdx) (d : BitVec 4) : fieldY (encXyd a x y d) = y := by
  apply Fin.ext; have := d.isLt; have := y.isLt; rw [fieldY_val, encXyd_toNat]; omega
@[simp] theorem fieldD_encXyd (a : BitVec 4) (x y : RegIdx) (d : BitVec 4) : fieldD (encXyd a x y d) = d := by
  apply BitVec.eq_of_toNat_eq; have := d.isLt; rw [fieldD_toNat, encXyd_toNat]; omega
@[simp] theorem fieldN_encXyd (a : BitVec 4) (x y : RegIdx) (n : Fin 16) : fieldN (encXyd a x y (nibble n)) = n := by
  apply Fin.ext; have := n.isLt; rw [fieldN_val, encXyd_toNat, nibble_toNat]; omega

/-! ## A word is the join of its fields -/

theorem encNnn_fields (op : Word) : encNnn (fieldA op) (fieldNnn op) = op := by
  apply BitVec.eq_of_toNat_eq; rw [encNnn_toNat, fieldA_toNat, fieldNnn_toNat]; omega
theorem encXkk_fields (op : Word) : encXkk (fieldA op) (fieldX op) (fieldKk op) = op := by
  apply BitVec.eq_of_toNat_eq; rw [encXkk_toNat, fieldA_toNat, fieldX_val, fieldKk_toNat]; omega
theorem encXyd_fields (op : Word) : encXyd (fieldA op) (fieldX op) (fieldY op) (fieldD op) = op := by
  apply BitVec.eq_of_toNat_eq; rw [encXyd_toNat, fieldA_toNat, fieldX_val, fieldY_val, fieldD_toNat]; omega

/-! ## The encoder's words and the numbers of R62 -/

theorem encNnn_eq_wordNnn (a : BitVec 4) (nnn : BitVec 12) : encNnn a nnn = Machine.wordNnn a.toNat nnn := by
  apply BitVec.eq_of_toNat_eq; have := nnn.isLt; have := a.isLt
  rw [encNnn_toNat, Machine.wordNnn, BitVec.toNat_ofNat]; omega
theorem encXkk_eq_wordXkk (a : BitVec 4) (x : RegIdx) (kk : Byte) : encXkk a x kk = Machine.wordXkk a.toNat x kk.toNat := by
  apply BitVec.eq_of_toNat_eq; have := kk.isLt; have := a.isLt; have := x.isLt
  rw [encXkk_toNat, Machine.wordXkk, BitVec.toNat_ofNat]; omega
theorem encXyd_eq_wordXyd (a : BitVec 4) (x y : RegIdx) (d : BitVec 4) :
    encXyd a x y d = Machine.wordXyd a.toNat x y d.toNat := by
  apply BitVec.eq_of_toNat_eq; have := d.isLt; have := a.isLt; have := x.isLt; have := y.isLt
  rw [encXyd_toNat, Machine.wordXyd, BitVec.toNat_ofNat]; omega

/-! ## Bytes of a word -/

/-- The two bytes of a word read back as the word (R43). -/
@[simp] theorem wordOfBytes_bytes (op : Word) : wordOfBytes (upperByte op) (lowerByte op) = op := by
  apply BitVec.eq_of_toNat_eq
  have h := append_toNat (upperByte op) (lowerByte op)
  simp only [upperByte, lowerByte, BitVec.extractLsb'_toNat, Nat.shiftRight_eq_div_pow] at h
  have := op.isLt
  simp only [wordOfBytes, upperByte, lowerByte]; omega

/-- The fetched word as a number: the byte at the lower address is the upper one (R43). -/
theorem wordOfBytes_toNat (first second : Byte) :
    (wordOfBytes first second).toNat = 256 * first.toNat + second.toNat := by
  have := append_toNat first second
  simp only [wordOfBytes]; omega

end Sys2Proof
end

