-- ==== Sys2Proof/Laws/Display.lean ====
section
/-! SUPPORT. What the drawing operations of `DRW` do, said once: which pixels a sprite's loop toggles, and what toggling
them does to the framebuffer and the collision flag. -/

namespace Sys2Proof.Machine

/-- The pixels of one sprite row: for each column offset whose bit is 1, the pixel there, wrapped (R141, R142). -/
theorem spriteRow_mem (vx vy row : Nat) (b : Byte) (p : Fin 32 × Fin 64) :
    p ∈ spriteRow vx vy row b ↔
      ∃ col, col < 8 ∧ p.1.val = (vy + row) % 32 ∧ p.2.val = (vx + col) % 64 ∧ b.getLsbD (7 - col) = true := by
  simp only [spriteRow, List.mem_map, List.mem_filter, List.mem_range, Prod.ext_iff, Fin.ext_iff, Fin.val_ofNat]
  constructor
  · rintro ⟨c, ⟨h1, h2⟩, h3, h4⟩; exact ⟨c, h1, h3.symm, h4.symm, h2⟩
  · rintro ⟨c, h1, h3, h4, h2⟩; exact ⟨c, ⟨h1, h2⟩, h3.symm, h4.symm⟩

/-- No pixel stands twice in a sprite row, 8 columns being fewer than 64. -/
theorem spriteRow_nodup (vx vy row : Nat) (b : Byte) : (spriteRow vx vy row b).Nodup := by
  rw [spriteRow]
  refine List.Nodup.map_on ?_ (List.Nodup.filter _ List.nodup_range)
  intro a ha c hc h
  simp [Prod.ext_iff, Fin.ext_iff] at ha hc h
  omega

/-- The pixels of a sprite: for each row offset and each column offset whose bit is 1, the pixel there, wrapped. -/
theorem spritePixels_mem (vx vy row : Nat) (bs : List Byte) (p : Fin 32 × Fin 64) :
    p ∈ spritePixels vx vy row bs ↔
      ∃ j col, j < bs.length ∧ col < 8 ∧ p.1.val = (vy + (row + j)) % 32 ∧ p.2.val = (vx + col) % 64 ∧
        (bs.getD j 0#8).getLsbD (7 - col) = true := by
  induction bs generalizing row with
  | nil => simp [spritePixels]
  | cons b bs ih =>
    simp only [spritePixels, List.mem_append, spriteRow_mem, ih, List.length_cons]
    constructor
    · rintro (⟨c, h⟩ | ⟨j, c, h1, h2, h3, h4⟩)
      · exact ⟨0, c, by omega, by simpa using h⟩
      · exact ⟨j + 1, c, by omega, h2, by rw [h3]; congr 1; omega, by simpa using h4⟩
    · rintro ⟨j, c, h1, h2, h3, h4⟩
      cases j with
      | zero => exact .inl ⟨c, h2, by simpa using h3, by simpa using h4⟩
      | succ j => exact .inr ⟨j, c, by omega, h2, by rw [h3]; congr 1; omega, by simpa using h4⟩

/-- No pixel stands twice in a sprite of at most 32 rows. -/
theorem spritePixels_nodup (vx vy row : Nat) (bs : List Byte) (h : bs.length ≤ 32) :
    (spritePixels vx vy row bs).Nodup := by
  induction bs generalizing row with
  | nil => simp [spritePixels]
  | cons b bs ih =>
    simp only [List.length_cons] at h
    rw [spritePixels, List.nodup_append]
    refine ⟨spriteRow_nodup .., ih _ (by omega), ?_⟩
    intro p hp q hq e
    subst e
    rw [spriteRow_mem] at hp
    rw [spritePixels_mem] at hq
    obtain ⟨c, _, h1, _⟩ := hp
    obtain ⟨j, c', h2, _, h3, _⟩ := hq
    omega

/-- Toggling pixels, none of them twice, flips exactly those, and reports a collision exactly when one of them was set. -/
theorem togglePixels_spec (ps : List (Fin 32 × Fin 64)) (hn : ps.Nodup) (fb : Framebuffer) (c : Bool) :
    (∀ r q, Framebuffer.pixel (togglePixels ps (fb, c)).1 r q =
      (Framebuffer.pixel fb r q ^^ decide ((r, q) ∈ ps))) ∧
    ((togglePixels ps (fb, c)).2 = true ↔ c = true ∨ ∃ r q, (r, q) ∈ ps ∧ Framebuffer.pixel fb r q = true) := by
  induction ps generalizing fb c with
  | nil => simp [togglePixels]
  | cons p ps ih =>
    obtain ⟨hp, hn⟩ := List.nodup_cons.mp hn
    obtain ⟨ih1, ih2⟩ := ih hn (Framebuffer.toggle fb p.1 p.2) (c || Framebuffer.pixel fb p.1 p.2)
    constructor
    · intro r q
      rw [togglePixels, ih1, Framebuffer.pixel_toggle]
      by_cases h : (r, q) = p
      · subst h; simp [hp]
      · have h' : ¬ (p.1 = r ∧ p.2 = q) := fun e => h (by rw [← e.1, ← e.2])
        simp [h, h']
    · rw [togglePixels, ih2]
      simp only [Bool.or_eq_true, List.mem_cons]
      constructor
      · rintro ((h | h) | ⟨r, q, h1, h2⟩)
        · exact .inl h
        · exact .inr ⟨p.1, p.2, .inl rfl, h⟩
        · rw [Framebuffer.pixel_toggle] at h2
          have h' : ¬ (p.1 = r ∧ p.2 = q) := fun e => hp (by rw [← e.1, ← e.2] at h1; exact h1)
          exact .inr ⟨r, q, .inr h1, by simpa [h'] using h2⟩
      · rintro (h | ⟨r, q, h1 | h1, h2⟩)
        · exact .inl (.inl h)
        · subst h1; exact .inl (.inr h2)
        · refine .inr ⟨r, q, h1, ?_⟩
          have h' : ¬ (p.1 = r ∧ p.2 = q) := fun e => hp (by rw [← e.1, ← e.2] at h1; exact h1)
          rw [Framebuffer.pixel_toggle]; simpa [h'] using h2

/-- The pixels the loop of `DRW` toggles are the pixels its sprite covers. -/
theorem spriteCovers_iff (s : State) (x y : RegIdx) (n : Fin 16) (r : Fin 32) (q : Fin 64) :
    SpriteCovers s x y n r q ↔
      (r, q) ∈ spritePixels (s.getV x).toNat (s.getV y).toNat 0 (s.mem.readList s.index.toNat n.val) := by
  rw [spritePixels_mem]
  simp only [SpriteCovers, Memory.readList_length, Nat.zero_add]
  constructor
  · rintro ⟨j, c, h1, h2, h3, h4, h5⟩; exact ⟨j, c, h1, h2, h3, h4, by rwa [Memory.readList_getD _ _ h1]⟩
  · rintro ⟨j, c, h1, h2, h3, h4, h5⟩; exact ⟨j, c, h1, h2, h3, h4, by rwa [Memory.readList_getD _ _ h1] at h5⟩

end Sys2Proof.Machine
end

