-- ==== Sys2Proof/Laws/PerInstr.lean ====
section
/-! SUPPORT. Statements made once for each instruction: the word of an instruction lies in its row of the opcode map
(spec/30_encoding.md R65), by the mask and match columns of that table. -/

namespace Sys2Proof.Laws

/-- The `mask` and `match` columns of R65 for an instruction's row. -/
def opcodeRow : Instr → Word × Word
  | .cls => (0xFFFF, 0x00E0)
  | .ret => (0xFFFF, 0x00EE)
  | .sys _ => (0xF000, 0x0000)
  | .jp _ => (0xF000, 0x1000)
  | .call _ => (0xF000, 0x2000)
  | .seImm _ _ => (0xF000, 0x3000)
  | .sneImm _ _ => (0xF000, 0x4000)
  | .seReg _ _ => (0xF00F, 0x5000)
  | .ldImm _ _ => (0xF000, 0x6000)
  | .addImm _ _ => (0xF000, 0x7000)
  | .ldReg _ _ => (0xF00F, 0x8000)
  | .orReg _ _ => (0xF00F, 0x8001)
  | .andReg _ _ => (0xF00F, 0x8002)
  | .xorReg _ _ => (0xF00F, 0x8003)
  | .addReg _ _ => (0xF00F, 0x8004)
  | .sub _ _ => (0xF00F, 0x8005)
  | .shr _ _ => (0xF00F, 0x8006)
  | .subn _ _ => (0xF00F, 0x8007)
  | .shl _ _ => (0xF00F, 0x800E)
  | .sneReg _ _ => (0xF00F, 0x9000)
  | .ldI _ => (0xF000, 0xA000)
  | .jpV0 _ => (0xF000, 0xB000)
  | .rnd _ _ => (0xF000, 0xC000)
  | .drw _ _ _ => (0xF000, 0xD000)
  | .skp _ => (0xF0FF, 0xE09E)
  | .sknp _ => (0xF0FF, 0xE0A1)
  | .ldVxDt _ => (0xF0FF, 0xF007)
  | .ldVxK _ => (0xF0FF, 0xF00A)
  | .ldDtVx _ => (0xF0FF, 0xF015)
  | .ldStVx _ => (0xF0FF, 0xF018)
  | .addI _ => (0xF0FF, 0xF01E)
  | .ldF _ => (0xF0FF, 0xF029)
  | .ldB _ => (0xF0FF, 0xF033)
  | .storeRegs _ => (0xF0FF, 0xF055)
  | .loadRegs _ => (0xF0FF, 0xF065)

/-- `op and mask = match` for the instruction's own word and row (R65). -/
def OpcodeRow.Statement (i : Instr) : Prop := encode i &&& (opcodeRow i).1 = (opcodeRow i).2

/-- Bitwise and works part by part. -/
theorem append_and_append {m n : Nat} (a c : BitVec m) (b d : BitVec n) :
    (a ++ b) &&& (c ++ d) = (a &&& c) ++ (b &&& d) := by
  refine BitVec.eq_of_getLsbD_eq fun k _ => ?_
  simp only [BitVec.getLsbD_and, BitVec.getLsbD_append]
  split <;> rfl

theorem and_allOnes4 (a : BitVec 4) : a &&& 0xF#4 = a := BitVec.and_allOnes
theorem and_allOnes8 (a : BitVec 8) : a &&& 0xFF#8 = a := BitVec.and_allOnes

/-- Format `NNN`: mask 0xF000 keeps the major opcode. -/
theorem mask_encNnn (a : BitVec 4) (nnn : BitVec 12) : encNnn a nnn &&& 0xF000#16 = a ++ 0#12 := by
  rw [show (0xF000#16 : Word) = 0xF#4 ++ 0#12 by decide, encNnn]
  exact (append_and_append ..).trans (by rw [and_allOnes4, BitVec.and_zero])

/-- Format `XKK`: mask 0xF000 keeps the major opcode. -/
theorem mask_encXkk (a : BitVec 4) (x : RegIdx) (kk : Byte) : encXkk a x kk &&& 0xF000#16 = a ++ 0#12 := by
  rw [show (0xF000#16 : Word) = 0xF#4 ++ 0#12 by decide, encXkk]
  exact (append_and_append ..).trans (by rw [and_allOnes4, BitVec.and_zero])

/-- Format `XYN`: mask 0xF000 keeps the major opcode. -/
theorem mask_encXyn (a : BitVec 4) (x y : RegIdx) (d : BitVec 4) : encXyd a x y d &&& 0xF000#16 = a ++ 0#12 := by
  rw [show (0xF000#16 : Word) = 0xF#4 ++ 0#12 by decide, encXyd]
  exact (append_and_append ..).trans (by rw [and_allOnes4, BitVec.and_zero])

/-- Format `X`: mask 0xF0FF keeps the major opcode and the low byte. -/
theorem mask_encX (a : BitVec 4) (x : RegIdx) (kk : Byte) : encXkk a x kk &&& 0xF0FF#16 = a ++ (0#4 ++ kk) := by
  rw [show (0xF0FF#16 : Word) = 0xF#4 ++ (0#4 ++ 0xFF#8) by decide, encXkk]
  exact (append_and_append ..).trans (by rw [append_and_append, and_allOnes4, BitVec.and_zero, and_allOnes8])

/-- Format `XY`: mask 0xF00F keeps the major opcode and the last nibble. -/
theorem mask_encXy (a : BitVec 4) (x y : RegIdx) (d : BitVec 4) :
    encXyd a x y d &&& 0xF00F#16 = a ++ (0#4 ++ (0#4 ++ d)) := by
  rw [show (0xF00F#16 : Word) = 0xF#4 ++ (0#4 ++ (0#4 ++ 0xF#4)) by decide, encXyd]
  exact (append_and_append ..).trans
    (by rw [append_and_append, append_and_append, and_allOnes4, BitVec.and_zero, BitVec.and_zero, and_allOnes4])

namespace OpcodeRow

theorem cls : Statement .cls := by unfold Statement; decide
theorem ret : Statement .ret := by unfold Statement; decide
theorem sys (nnn : BitVec 12) : Statement (.sys nnn) := mask_encNnn ..
theorem jp (nnn : BitVec 12) : Statement (.jp nnn) := mask_encNnn ..
theorem call (nnn : BitVec 12) : Statement (.call nnn) := mask_encNnn ..
theorem seImm (x : RegIdx) (kk : Byte) : Statement (.seImm x kk) := mask_encXkk ..
theorem sneImm (x : RegIdx) (kk : Byte) : Statement (.sneImm x kk) := mask_encXkk ..
theorem seReg (x y : RegIdx) : Statement (.seReg x y) := mask_encXy ..
theorem ldImm (x : RegIdx) (kk : Byte) : Statement (.ldImm x kk) := mask_encXkk ..
theorem addImm (x : RegIdx) (kk : Byte) : Statement (.addImm x kk) := mask_encXkk ..
theorem ldReg (x y : RegIdx) : Statement (.ldReg x y) := mask_encXy ..
theorem orReg (x y : RegIdx) : Statement (.orReg x y) := mask_encXy ..
theorem andReg (x y : RegIdx) : Statement (.andReg x y) := mask_encXy ..
theorem xorReg (x y : RegIdx) : Statement (.xorReg x y) := mask_encXy ..
theorem addReg (x y : RegIdx) : Statement (.addReg x y) := mask_encXy ..
theorem sub (x y : RegIdx) : Statement (.sub x y) := mask_encXy ..
theorem shr (x y : RegIdx) : Statement (.shr x y) := mask_encXy ..
theorem subn (x y : RegIdx) : Statement (.subn x y) := mask_encXy ..
theorem shl (x y : RegIdx) : Statement (.shl x y) := mask_encXy ..
theorem sneReg (x y : RegIdx) : Statement (.sneReg x y) := mask_encXy ..
theorem ldI (nnn : BitVec 12) : Statement (.ldI nnn) := mask_encNnn ..
theorem jpV0 (nnn : BitVec 12) : Statement (.jpV0 nnn) := mask_encNnn ..
theorem rnd (x : RegIdx) (kk : Byte) : Statement (.rnd x kk) := mask_encXkk ..
theorem drw (x y : RegIdx) (n : Fin 16) : Statement (.drw x y n) := mask_encXyn ..
theorem skp (x : RegIdx) : Statement (.skp x) := mask_encX ..
theorem sknp (x : RegIdx) : Statement (.sknp x) := mask_encX ..
theorem ldVxDt (x : RegIdx) : Statement (.ldVxDt x) := mask_encX ..
theorem ldVxK (x : RegIdx) : Statement (.ldVxK x) := mask_encX ..
theorem ldDtVx (x : RegIdx) : Statement (.ldDtVx x) := mask_encX ..
theorem ldStVx (x : RegIdx) : Statement (.ldStVx x) := mask_encX ..
theorem addI (x : RegIdx) : Statement (.addI x) := mask_encX ..
theorem ldF (x : RegIdx) : Statement (.ldF x) := mask_encX ..
theorem ldB (x : RegIdx) : Statement (.ldB x) := mask_encX ..
theorem storeRegs (x : RegIdx) : Statement (.storeRegs x) := mask_encX ..
theorem loadRegs (x : RegIdx) : Statement (.loadRegs x) := mask_encX ..

/-- Every instruction's word lies in its row of the opcode map. -/
theorem all (i : Instr) : Statement i := by
  cases i
  case cls => apply OpcodeRow.cls
  case ret => apply OpcodeRow.ret
  case sys => apply OpcodeRow.sys
  case jp => apply OpcodeRow.jp
  case call => apply OpcodeRow.call
  case seImm => apply OpcodeRow.seImm
  case sneImm => apply OpcodeRow.sneImm
  case seReg => apply OpcodeRow.seReg
  case ldImm => apply OpcodeRow.ldImm
  case addImm => apply OpcodeRow.addImm
  case ldReg => apply OpcodeRow.ldReg
  case orReg => apply OpcodeRow.orReg
  case andReg => apply OpcodeRow.andReg
  case xorReg => apply OpcodeRow.xorReg
  case addReg => apply OpcodeRow.addReg
  case sub => apply OpcodeRow.sub
  case shr => apply OpcodeRow.shr
  case subn => apply OpcodeRow.subn
  case shl => apply OpcodeRow.shl
  case sneReg => apply OpcodeRow.sneReg
  case ldI => apply OpcodeRow.ldI
  case jpV0 => apply OpcodeRow.jpV0
  case rnd => apply OpcodeRow.rnd
  case drw => apply OpcodeRow.drw
  case skp => apply OpcodeRow.skp
  case sknp => apply OpcodeRow.sknp
  case ldVxDt => apply OpcodeRow.ldVxDt
  case ldVxK => apply OpcodeRow.ldVxK
  case ldDtVx => apply OpcodeRow.ldDtVx
  case ldStVx => apply OpcodeRow.ldStVx
  case addI => apply OpcodeRow.addI
  case ldF => apply OpcodeRow.ldF
  case ldB => apply OpcodeRow.ldB
  case storeRegs => apply OpcodeRow.storeRegs
  case loadRegs => apply OpcodeRow.loadRegs

end OpcodeRow

end Sys2Proof.Laws
end

