-- ==== Sys2Proof/Tests/Slice0.lean ====
section
/-! SUPPORT. The model's own tests. The expected results are those of spec/95_test_vectors.md, whose vector ids stand in the
comments, or of the rules named there. The second half holds, for each statement with hypotheses, states that meet them. -/

namespace Sys2Proof.Tests

open Sys2Proof Sys2Proof.Machine

/-! ## Helpers -/

/-- The word is stored at `pc`, one cycle runs, and the state after it meets the check. -/
def run (s : State) (w : Word) (check : State → Bool) : Bool :=
  match step (s.placeWord w) with
  | .next t => check t
  | .fault _ => false
  | .refused _ => false

/-- The state after an instruction that answers one. -/
def after (i : Instr) (s : State) : State :=
  match exec i s with
  | .next t => t
  | .fault _ => s
  | .refused _ => s

/-- The state after a step that answers one. -/
def afterStep (s : State) : State :=
  match step s with
  | .next t => t
  | .fault _ => s
  | .refused _ => s

/-- The reset state. -/
def r0 : State := State.reset

/-- The state with one cycle's inputs. -/
def withInput (s : State) (now : Nat) (keyIn : KeyLines) (rnd : Byte) : State :=
  { s with inputs := [{ stopReq := false, now := now, keyIn := keyIn, rnd := rnd }] }

/-- The state with one byte of memory set. -/
def poke (s : State) (a : Nat) (b : Byte) : State := { s with mem := s.mem.write a b }

/-- The fault record of a halted state. -/
def faulted (t : State) (cause : FaultCause) (pc : Addr) (op : Word) : Bool :=
  t.halted && t.faultCause == cause && t.faultPc == pc && t.faultOpcode == op && t.pc == pc

/-! ## Well-formed terms -/

theorem test_wellFormed_refuses_sys_0E0 : Instr.wellFormed (.sys 0x0E0#12) = false := by decide
theorem test_wellFormed_refuses_sys_0EE : Instr.wellFormed (.sys 0x0EE#12) = false := by decide
theorem test_wellFormed_takes_sys_0E1 : Instr.wellFormed (.sys 0x0E1#12) = true := by decide

/-! ## Decoding (section 2.8): a word of each row -/

theorem test_decode_cls : decodeWord 0x00E0#16 = .ok (.cls) := by decide
theorem test_decode_ret : decodeWord 0x00EE#16 = .ok (.ret) := by decide
theorem test_decode_sys : decodeWord 0x0ABC#16 = .ok (.sys 0xABC#12) := by decide
theorem test_decode_jp : decodeWord 0x1ABC#16 = .ok (.jp 0xABC#12) := by decide
theorem test_decode_call : decodeWord 0x2ABC#16 = .ok (.call 0xABC#12) := by decide
theorem test_decode_seImm : decodeWord 0x3A7F#16 = .ok (.seImm 10 0x7F#8) := by decide
theorem test_decode_sneImm : decodeWord 0x4A7F#16 = .ok (.sneImm 10 0x7F#8) := by decide
theorem test_decode_seReg : decodeWord 0x5AB0#16 = .ok (.seReg 10 11) := by decide
theorem test_decode_ldImm : decodeWord 0x6A7F#16 = .ok (.ldImm 10 0x7F#8) := by decide
theorem test_decode_addImm : decodeWord 0x7A7F#16 = .ok (.addImm 10 0x7F#8) := by decide
theorem test_decode_ldReg : decodeWord 0x8AB0#16 = .ok (.ldReg 10 11) := by decide
theorem test_decode_orReg : decodeWord 0x8AB1#16 = .ok (.orReg 10 11) := by decide
theorem test_decode_andReg : decodeWord 0x8AB2#16 = .ok (.andReg 10 11) := by decide
theorem test_decode_xorReg : decodeWord 0x8AB3#16 = .ok (.xorReg 10 11) := by decide
theorem test_decode_addReg : decodeWord 0x8AB4#16 = .ok (.addReg 10 11) := by decide
theorem test_decode_sub : decodeWord 0x8AB5#16 = .ok (.sub 10 11) := by decide
theorem test_decode_shr : decodeWord 0x8AB6#16 = .ok (.shr 10 11) := by decide
theorem test_decode_subn : decodeWord 0x8AB7#16 = .ok (.subn 10 11) := by decide
theorem test_decode_shl : decodeWord 0x8ABE#16 = .ok (.shl 10 11) := by decide
theorem test_decode_sneReg : decodeWord 0x9AB0#16 = .ok (.sneReg 10 11) := by decide
theorem test_decode_ldI : decodeWord 0xAABC#16 = .ok (.ldI 0xABC#12) := by decide
theorem test_decode_jpV0 : decodeWord 0xBABC#16 = .ok (.jpV0 0xABC#12) := by decide
theorem test_decode_rnd : decodeWord 0xCA7F#16 = .ok (.rnd 10 0x7F#8) := by decide
theorem test_decode_drw : decodeWord 0xDAB5#16 = .ok (.drw 10 11 5) := by decide
theorem test_decode_skp : decodeWord 0xEA9E#16 = .ok (.skp 10) := by decide
theorem test_decode_sknp : decodeWord 0xEAA1#16 = .ok (.sknp 10) := by decide
theorem test_decode_ldVxDt : decodeWord 0xFA07#16 = .ok (.ldVxDt 10) := by decide
theorem test_decode_ldVxK : decodeWord 0xFA0A#16 = .ok (.ldVxK 10) := by decide
theorem test_decode_ldDtVx : decodeWord 0xFA15#16 = .ok (.ldDtVx 10) := by decide
theorem test_decode_ldStVx : decodeWord 0xFA18#16 = .ok (.ldStVx 10) := by decide
theorem test_decode_addI : decodeWord 0xFA1E#16 = .ok (.addI 10) := by decide
theorem test_decode_ldF : decodeWord 0xFA29#16 = .ok (.ldF 10) := by decide
theorem test_decode_ldB : decodeWord 0xFA33#16 = .ok (.ldB 10) := by decide
theorem test_decode_storeRegs : decodeWord 0xFA55#16 = .ok (.storeRegs 10) := by decide
theorem test_decode_loadRegs : decodeWord 0xFA65#16 = .ok (.loadRegs 10) := by decide

/-- The decoder refuses the word by its name: the invalid words of section 2.8. -/
def invalid (w : Word) : Bool :=
  match decodeWord w with
  | .ok _ => false
  | .error e => e == .invalidOpcode w

theorem test_decode_refuses_invalid_5_8_9 :
    (invalid 0x5001#16 && invalid 0x812F#16 && invalid 0x8AB9#16 && invalid 0x9ABF#16) = true := by decide
theorem test_decode_refuses_invalid_E_F :
    (invalid 0xE000#16 && invalid 0xE09F#16 && invalid 0xE1A0#16 && invalid 0xF000#16 && invalid 0xF066#16 &&
      invalid 0xFFFF#16) = true := by decide

theorem test_decode_bytes_high_byte_first :
    decode [0x60#8, 0x05#8, 0x70#8] = .ok (.ldImm 0 0x05#8, [0x70#8]) ∧ decode [0x60#8] = .error .truncated := by decide
theorem test_decodeTableWord : decodeTableWord 16 0xDAB5 = some (.drw 10 11 5) ∧ decodeTableWord 16 0x5001 = none := by decide
theorem test_encode_words_of_the_table :
    encode (.drw 10 11 5) = 0xDAB5#16 ∧ encode (.shl 10 11) = 0x8ABE#16 ∧ encode (.ldI 0xABC#12) = 0xAABC#16 ∧
      encode (.sneImm 10 0x7F#8) = 0x4A7F#16 := by decide

/-! ## Memory -/

theorem test_memory_write_of_the_background_removes_the_cell :
    ((r0.mem.write 0x300 7#8).write 0x300 0#8) = r0.mem ∧ ((r0.mem.write 0 1#8).write 0 0xF0#8) = r0.mem := by decide
theorem test_memory_order_of_writes_is_forgotten :
    (r0.mem.write 0x300 7#8).write 0x200 9#8 = (r0.mem.write 0x200 9#8).write 0x300 7#8 := by decide
theorem test_memory_wf_refuses : Memory.wf ⟨[(5, 1#8), (5, 2#8)]⟩ = false ∧ Memory.wf ⟨[(0x300, 0#8)]⟩ = false ∧
    Memory.wf ⟨[(4096, 1#8)]⟩ = false := by decide

/-! ## Loads, arithmetic, logic, shifts (section 2.1) -/

/-- A1. -/
theorem test_ldImm :
    run r0 0x637F#16
      (fun t => t.getV 3 == 0x7F#8 && t.pc == 0x202#16) = true := by decide
/-- A2. -/
theorem test_addImm_wraps_and_leaves_flag :
    run ((r0.setV 10 0xFF#8).setV 15 0x55#8) 0x7A02#16
      (fun t => t.getV 10 == 0x01#8 && t.getV 15 == 0x55#8 && t.pc == 0x202#16) = true := by decide
/-- A3. -/
theorem test_addImm_to_VF :
    run (r0.setV 15 0xFF#8) 0x7F01#16
      (fun t => t.getV 15 == 0x00#8 && t.pc == 0x202#16) = true := by decide
/-- A4. -/
theorem test_ldReg :
    run (r0.setV 2 0xAB#8) 0x8120#16
      (fun t => t.getV 1 == 0xAB#8 && t.getV 2 == 0xAB#8 && t.pc == 0x202#16) = true := by decide
/-- A5. -/
theorem test_orReg :
    run (((r0.setV 1 0xF0#8).setV 2 0x0F#8).setV 15 0x01#8) 0x8121#16
      (fun t => t.getV 1 == 0xFF#8 && t.getV 2 == 0x0F#8 && t.getV 15 == 0x01#8 && t.pc == 0x202#16) = true := by decide
/-- A6. -/
theorem test_andReg :
    run (((r0.setV 1 0xF0#8).setV 2 0x3C#8).setV 15 0x01#8) 0x8122#16
      (fun t => t.getV 1 == 0x30#8 && t.getV 15 == 0x01#8 && t.pc == 0x202#16) = true := by decide
/-- A7. -/
theorem test_xorReg :
    run (((r0.setV 1 0xFF#8).setV 2 0x0F#8).setV 15 0x01#8) 0x8123#16
      (fun t => t.getV 1 == 0xF0#8 && t.getV 15 == 0x01#8 && t.pc == 0x202#16) = true := by decide
/-- A7b. -/
theorem test_xorReg_self :
    run (r0.setV 1 0x5A#8) 0x8113#16
      (fun t => t.getV 1 == 0x00#8 && t.pc == 0x202#16) = true := by decide
/-- A8. -/
theorem test_addReg_carry :
    run ((r0.setV 1 0xFF#8).setV 2 0x01#8) 0x8124#16
      (fun t => t.getV 1 == 0x00#8 && t.getV 15 == 0x01#8 && t.pc == 0x202#16) = true := by decide
/-- A20. -/
theorem test_addReg_flag_survives_in_VF :
    run ((r0.setV 15 0xFF#8).setV 1 0x01#8) 0x8F14#16
      (fun t => t.getV 15 == 0x01#8 && t.getV 1 == 0x01#8 && t.pc == 0x202#16) = true := by decide
/-- A12. -/
theorem test_sub_wraps :
    run (((r0.setV 1 0x03#8).setV 2 0x05#8).setV 15 0x01#8) 0x8125#16
      (fun t => t.getV 1 == 0xFE#8 && t.getV 15 == 0x00#8 && t.pc == 0x202#16) = true := by decide
/-- A11. -/
theorem test_sub_equal_clears_flag :
    run (((r0.setV 1 0x07#8).setV 2 0x07#8).setV 15 0x01#8) 0x8125#16
      (fun t => t.getV 1 == 0x00#8 && t.getV 15 == 0x00#8 && t.pc == 0x202#16) = true := by decide
/-- A13. -/
theorem test_subn :
    run ((r0.setV 1 0x03#8).setV 2 0x05#8) 0x8127#16
      (fun t => t.getV 1 == 0x02#8 && t.getV 15 == 0x01#8 && t.pc == 0x202#16) = true := by decide
/-- A15. -/
theorem test_subn_equal_clears_flag :
    run (((r0.setV 1 0x07#8).setV 2 0x07#8).setV 15 0x01#8) 0x8127#16
      (fun t => t.getV 1 == 0x00#8 && t.getV 15 == 0x00#8 && t.pc == 0x202#16) = true := by decide
/-- A16. -/
theorem test_shr_modern :
    run ((r0.setV 1 0x03#8).setV 2 0x80#8) 0x8126#16
      (fun t => t.getV 1 == 0x01#8 && t.getV 15 == 0x01#8 && t.getV 2 == 0x80#8 && t.pc == 0x202#16) = true := by decide
/-- A17. -/
theorem test_shr_legacy :
    run { (((r0.setV 1 0x03#8).setV 2 0x80#8).setV 15 0x01#8) with shiftLegacy := true } 0x8126#16
      (fun t => t.getV 1 == 0x40#8 && t.getV 15 == 0x00#8 && t.getV 2 == 0x80#8 && t.pc == 0x202#16) = true := by decide
/-- A18. -/
theorem test_shl_modern :
    run ((r0.setV 1 0x81#8).setV 2 0x40#8) 0x812E#16
      (fun t => t.getV 1 == 0x02#8 && t.getV 15 == 0x01#8 && t.pc == 0x202#16) = true := by decide
/-- A31. -/
theorem test_shl_legacy_into_VF :
    run { ((r0.setV 15 0x7F#8).setV 0 0x80#8) with shiftLegacy := true } 0x8F0E#16
      (fun t => t.getV 15 == 0x01#8 && t.pc == 0x202#16) = true := by decide

/-! ## Skips (section 2.2) -/

/-- K1. -/
theorem test_seImm_taken :
    run { (r0.setV 0 0x08#8) with pc := 0x204#16 } 0x3008#16
      (fun t => t.pc == 0x208#16) = true := by decide
/-- K2. -/
theorem test_seImm_not_taken :
    run { (r0.setV 0 0x07#8) with pc := 0x204#16 } 0x3008#16
      (fun t => t.pc == 0x206#16) = true := by decide
/-- K3. -/
theorem test_sneImm_not_taken :
    run { (r0.setV 0 0x08#8) with pc := 0x204#16 } 0x4008#16
      (fun t => t.pc == 0x206#16) = true := by decide
/-- K4. -/
theorem test_sneImm_taken :
    run { (r0.setV 0 0x07#8) with pc := 0x204#16 } 0x4008#16
      (fun t => t.pc == 0x208#16) = true := by decide
/-- K5. -/
theorem test_seReg_taken :
    run { ((r0.setV 1 0x33#8).setV 2 0x33#8) with pc := 0x300#16 } 0x5120#16
      (fun t => t.pc == 0x304#16) = true := by decide
/-- K6. -/
theorem test_seReg_not_taken :
    run { ((r0.setV 1 0x33#8).setV 2 0x34#8) with pc := 0x300#16 } 0x5120#16
      (fun t => t.pc == 0x302#16) = true := by decide
/-- K7. -/
theorem test_sneReg_taken :
    run { ((r0.setV 1 0x33#8).setV 2 0x34#8) with pc := 0x300#16 } 0x9120#16
      (fun t => t.pc == 0x304#16) = true := by decide
/-- K10. -/
theorem test_sneReg_self_never_skips :
    run (r0.setV 3 0x09#8) 0x9330#16
      (fun t => t.pc == 0x202#16) = true := by decide

/-! ## Control flow (section 2.3) -/

/-- J3. -/
theorem test_sys_next_to_cls :
    run r0 0x00E1#16
      (fun t => t.pc == 0x202#16 && t.fb == r0.fb) = true := by decide
/-- J6. -/
theorem test_jp_to_4095_is_legal :
    run r0 0x1FFF#16
      (fun t => t.pc == 0xFFF#16 && !t.halted) = true := by decide
/-- J7. -/
theorem test_jp_odd_target :
    run r0 0x1301#16
      (fun t => t.pc == 0x301#16) = true := by decide
/-- J8. -/
theorem test_call :
    run r0 0x2300#16
      (fun t => t.pc == 0x300#16 && t.sp == 1 && t.stack[0] == 0x202#16) = true := by decide
/-- J12. -/
theorem test_call_full_stack_faults :
    run { r0 with sp := 16, stack := Vector.replicate 16 0x202#16 } 0x2200#16
      (fun t => faulted t .stackOverflow 0x200#16 0x2200#16 && t.sp == 16 && t.stack == Vector.replicate 16 0x202#16) = true := by decide
/-- J9. -/
theorem test_ret :
    run { r0 with pc := 0x300#16, sp := 1, stack := r0.stack.set 0 0x202#16 } 0x00EE#16
      (fun t => t.pc == 0x202#16 && t.sp == 0 && t.stack[0] == 0x202#16) = true := by decide
/-- J10. -/
theorem test_ret_empty_stack_faults :
    run { r0 with pc := 0x204#16 } 0x00EE#16
      (fun t => faulted t .stackUnderflow 0x204#16 0x00EE#16 && t.sp == 0) = true := by decide
/-- J14. -/
theorem test_jpV0_is_not_reduced :
    run (r0.setV 0 0xFF#8) 0xBFFF#16
      (fun t => t.pc == 0x10FE#16) = true := by decide
/-- J15. -/
theorem test_jpV0_reads_V0_only :
    run (r0.setV 3 0x10#8) 0xB300#16
      (fun t => t.pc == 0x300#16) = true := by decide

/-! ## Random byte and timers (section 2.4) -/

/-- T1. -/
theorem test_rnd :
    run (withInput r0 0 0x0000#16 0xA7#8) 0xC00F#16
      (fun t => t.getV 0 == 0x07#8 && t.pc == 0x202#16) = true := by decide
/-- T2. -/
theorem test_rnd_mask_0 :
    run (withInput (r0.setV 0 0x99#8) 0 0x0000#16 0xFF#8) 0xC000#16
      (fun t => t.getV 0 == 0x00#8 && t.pc == 0x202#16) = true := by decide
/-- T7. -/
theorem test_ldVxDt_sees_this_cycles_decrement :
    run (withInput { r0 with dt := 0x1E#8 } 16600 0x0000#16 0x00#8) 0xF407#16
      (fun t => t.getV 4 == 0x1D#8 && t.pc == 0x202#16 && t.dt == 0x1D#8 && t.lastUpdate == 16600) = true := by decide
/-- T8. -/
theorem test_ldVxDt_one_unit_short :
    run (withInput { r0 with dt := 0x1E#8 } 16599 0x0000#16 0x00#8) 0xF407#16
      (fun t => t.getV 4 == 0x1E#8 && t.pc == 0x202#16 && t.dt == 0x1E#8 && t.lastUpdate == 0) = true := by decide
/-- T9. -/
theorem test_ldDtVx_after_the_decrement :
    run (withInput { (r0.setV 3 2#8) with dt := 9#8 } 16600 0x0000#16 0x00#8) 0xF315#16
      (fun t => t.dt == 2#8 && t.lastUpdate == 16600 && t.pc == 0x202#16) = true := by decide
/-- T6. -/
theorem test_ldStVx :
    run (r0.setV 3 0x05#8) 0xF318#16
      (fun t => t.st == 5#8 && t.pc == 0x202#16) = true := by decide
/-- C5. -/
theorem test_timer_no_catching_up :
    run (withInput { r0 with dt := 5#8, st := 7#8 } 1000000 0x0000#16 0x00#8) 0x6001#16
      (fun t => t.dt == 4#8 && t.st == 6#8 && t.lastUpdate == 1000000) = true := by decide
/-- C4. -/
theorem test_timer_floor_at_0 :
    run (withInput r0 50000 0x0000#16 0x00#8) 0x6001#16
      (fun t => t.dt == 0#8 && t.st == 0#8 && t.lastUpdate == 50000) = true := by decide

/-! ## Index register and memory (section 2.5) -/

/-- M1. -/
theorem test_ldI :
    run r0 0xA300#16
      (fun t => t.index == 0x300#16 && t.pc == 0x202#16) = true := by decide
/-- M3. -/
theorem test_addI_past_4095_leaves_flag :
    run { ((r0.setV 0 0x01#8).setV 15 0x55#8) with index := 0x0FFF#16 } 0xF01E#16
      (fun t => t.index == 0x1000#16 && t.getV 15 == 0x55#8) = true := by decide
/-- M4. -/
theorem test_addI_wraps :
    run { (r0.setV 0 0x02#8) with index := 0xFFFF#16 } 0xF01E#16
      (fun t => t.index == 1#16) = true := by decide
/-- M5. -/
theorem test_ldF :
    run { (r0.setV 0 0x0A#8) with index := 0x0999#16 } 0xF029#16
      (fun t => t.index == 0x32#16 && t.pc == 0x202#16) = true := by decide
/-- M7. -/
theorem test_ldF_above_15_faults :
    run { (r0.setV 0 0x10#8) with index := 0x0123#16 } 0xF029#16
      (fun t => faulted t .invalidGlyphIndex 0x200#16 0xF029#16 && t.index == 0x123#16) = true := by decide
/-- M8. -/
theorem test_ldB :
    run { (r0.setV 0 0x9C#8) with index := 0x0300#16 } 0xF033#16
      (fun t => t.mem.read 0x300 == 0x01#8 && t.mem.read 0x301 == 0x05#8 && t.mem.read 0x302 == 0x06#8 && t.pc == 0x202#16) = true := by decide
/-- M12. -/
theorem test_ldB_out_of_range_writes_nothing :
    run { (r0.setV 0 0x7B#8) with index := 0x0FFE#16 } 0xF033#16
      (fun t => faulted t .memoryOutOfRange 0x200#16 0xF033#16 && t.mem.read 0xFFE == 0x00#8 && t.mem.read 0xFFF == 0x00#8) = true := by decide
/-- M13. -/
theorem test_storeRegs :
    run { ((r0.setV 0 0x6F#8).setV 1 0x42#8) with index := 0x0208#16 } 0xF155#16
      (fun t => t.mem.read 0x208 == 0x6F#8 && t.mem.read 0x209 == 0x42#8 && t.mem.read 0x20A == 0x00#8 && t.index == 0x208#16 &&
        t.pc == 0x202#16) = true := by decide
/-- M15. -/
theorem test_storeRegs_out_of_range_writes_nothing :
    run { ((r0.setV 0 0xAA#8).setV 1 0xBB#8) with index := 0x0FFF#16 } 0xF155#16
      (fun t => faulted t .memoryOutOfRange 0x200#16 0xF155#16 && t.mem.read 0xFFF == 0x00#8) = true := by decide
/-- M17. -/
theorem test_loadRegs :
    run (poke (poke (poke (poke { (r0.setV 3 0x77#8) with index := 0x300#16 } 0x300 1#8) 0x301 5#8) 0x302 6#8) 0x303 9#8) 0xF265#16
      (fun t => t.getV 0 == 0x01#8 && t.getV 1 == 0x05#8 && t.getV 2 == 0x06#8 && t.getV 3 == 0x77#8 && t.pc == 0x202#16) = true := by decide
/-- M19. -/
theorem test_loadRegs_out_of_range_reads_nothing :
    run { (r0.setV 0 0x11#8) with index := 0x0FF1#16 } 0xFF65#16
      (fun t => faulted t .memoryOutOfRange 0x200#16 0xFF65#16 && t.getV 0 == 0x11#8) = true := by decide

/-! ## Display (section 2.6) -/

/-- The pixels `(column, row)` that are 1, all others being 0. -/
def screenIs (t : State) (pixels : List (Nat × Nat)) : Bool :=
  (List.finRange 32).all fun r => (List.finRange 64).all fun q => t.pixel r q == pixels.contains (q.val, r.val)

/-- The reset state with the pixels set. -/
def screen (s : State) (pixels : List (Fin 64 × Fin 32)) : State :=
  { s with fb := pixels.foldl (fun fb p => Framebuffer.toggle fb p.2 p.1) s.fb }

/-- D1. -/
theorem test_cls :
    run (screen (r0.setV 15 0x55#8) [(0, 0), (10, 5), (63, 31)]) 0x00E0#16
      (fun t => t.fb == r0.fb && t.getV 15 == 0x55#8 && t.pc == 0x202#16) = true := by decide
/-- D8. -/
theorem test_drw_wraps_at_the_right_edge :
    run (poke { ((r0.setV 1 0x3E#8).setV 2 0x1F#8) with index := 0x300#16 } 0x300 0xFF#8) 0xD121#16
      (fun t => screenIs t [(62, 31), (63, 31), (0, 31), (1, 31), (2, 31), (3, 31), (4, 31), (5, 31)] && t.getV 15 == 0x00#8 &&
        t.pc == 0x202#16) = true := by decide
/-- D4. -/
theorem test_drw_collision :
    run (poke (screen { r0 with index := 0x300#16 } [(1, 0)]) 0x300 0xC0#8) 0xD011#16
      (fun t => screenIs t [(0, 0)] && t.getV 15 == 0x01#8 && t.pc == 0x202#16) = true := by decide
/-- D13. -/
theorem test_drw_out_of_range_draws_nothing :
    run (poke { (r0.setV 15 7#8) with index := 0xFFF#16 } 0xFFF 0x80#8) 0xD012#16
      (fun t => faulted t .memoryOutOfRange 0x200#16 0xD012#16 && t.fb == r0.fb && t.getV 15 == 7#8) = true := by decide

/-! ## Keypad (section 2.7) -/

/-- I1. -/
theorem test_skp_tests_this_cycles_sample :
    run (withInput (r0.setV 0 0x05#8) 0 0x0020#16 0x00#8) 0xE09E#16
      (fun t => t.pc == 0x204#16 && t.keys == 0x20#16) = true := by decide
/-- I5. -/
theorem test_skp_above_15_faults_and_keeps_the_sample :
    run (withInput (r0.setV 0 0x10#8) 0 0xFFFF#16 0x00#8) 0xE09E#16
      (fun t => faulted t .invalidKeyIndex 0x200#16 0xE09E#16 && t.keys == 0xFFFF#16) = true := by decide
/-- I3. -/
theorem test_sknp :
    run (withInput (r0.setV 0 0x05#8) 0 0x0000#16 0x00#8) 0xE0A1#16
      (fun t => t.pc == 0x204#16) = true := by decide
/-- I6. -/
theorem test_sknp_upper_nibble_is_not_masked :
    run (withInput (r0.setV 0 0xF5#8) 0 0x0020#16 0x00#8) 0xE0A1#16
      (fun t => faulted t .invalidKeyIndex 0x200#16 0xE0A1#16 && t.keys == 0x20#16) = true := by decide
/-- I11. -/
theorem test_ldVxK_lowest_new_key :
    run (withInput { (r0.setV 5 0x99#8) with pc := 0x20A#16, keys := 1#16 } 0 0x8089#16 0x00#8) 0xF50A#16
      (fun t => t.getV 5 == 0x03#8 && t.pc == 0x20C#16 && t.keysPrev == 1#16) = true := by decide
/-- I13. -/
theorem test_ldVxK_waits_and_timers_run :
    run (withInput { (r0.setV 5 0x99#8) with pc := 0x20A#16, dt := 3#8 } 20000 0x0000#16 0x00#8) 0xF50A#16
      (fun t => t.getV 5 == 0x99#8 && t.pc == 0x20A#16 && t.dt == 2#8 && t.lastUpdate == 20000) = true := by decide

/-! ## Cycle, faults, reset (sections 2.9, 2.10) -/

/-- C1. -/
theorem test_stop_does_nothing_else :
    run { r0 with inputs := [{ stopReq := true, now := 99999, keyIn := 0xFFFF#16, rnd := 0#8 }] } 0x6001#16
      (fun t => t.halted && t.faultCause == .none && t.getV 0 == 0#8 && t.pc == 0x200#16 && t.lastUpdate == 0 &&
        t.keys == 0#16) = true := by decide
/-- C2. -/
theorem test_faulting_cycle_keeps_timers_and_keys :
    run (withInput { r0 with dt := 5#8, st := 1#8 } 16600 0x0003#16 0x00#8) 0x00EE#16
      (fun t => faulted t .stackUnderflow 0x200#16 0x00EE#16 && t.dt == 4#8 && t.st == 0#8 && t.lastUpdate == 16600 &&
        t.keys == 3#16) = true := by decide
/-- section 2.8. -/
theorem test_invalid_opcode_faults :
    run r0 0x8008#16
      (fun t => faulted t .invalidOpcode 0x200#16 0x8008#16) = true := by decide
/-- F1: 4095 cannot be fetched from although its first byte exists. -/
theorem test_fetch_at_4095_faults :
    (afterStep { r0 with pc := 0xFFF#16 }).faultCause = .fetchOutOfRange ∧
      (afterStep { r0 with pc := 0xFFF#16 }).faultPc = 0xFFF#16 := by decide
/-- F4: 4094 is fetchable. -/
theorem test_fetch_at_4094 : run { r0 with pc := 0xFFE#16 } 0x1FFE#16 (fun t => t.pc == 0xFFE#16 && !t.halted) = true := by
  decide
/-- R196 (c): a clock that goes backwards is refused. -/
theorem test_clock_backwards_refused :
    (match step (withInput { r0 with clock := 5 } 4 0#16 0#8) with
      | .refused .clockWentBackwards => true
      | _ => false) = true := by decide
/-- C6: a halted machine stays as it is. -/
theorem test_halted_stays : (match step { r0 with halted := true } with
    | .next t => decide (t = { r0 with halted := true })
    | _ => false) = true := by decide
/-- X1: the reset of an image of six bytes at `now = 1000`. -/
theorem test_boot_loads_image :
    let t := State.boot { defaultConfig with image := [0x60#8, 0x05#8, 0x70#8, 0x03#8, 0x00#8, 0xEE#8] } 1000
    t.pc = 0x200#16 ∧ t.lastUpdate = 1000 ∧ t.mem.readList 0x200 7 = [0x60#8, 0x05#8, 0x70#8, 0x03#8, 0x00#8, 0xEE#8, 0#8] ∧
      t.mem.readList 0 5 = [0xF0#8, 0x90#8, 0x90#8, 0x90#8, 0xF0#8] ∧ t.mem.wf = true := by decide
/-- P1 and S11: the first two words of the source's program, one cycle each. -/
theorem test_source_scenario :
    let s := State.boot { defaultConfig with image := [0x60#8, 0x05#8, 0x70#8, 0x03#8, 0x00#8, 0xEE#8] } 0
    (afterStep (afterStep s)).getV 0 = 8#8 ∧ (afterStep (afterStep s)).pc = 0x204#16 := by decide
/-- R70 and the mnemonic column of section 2.8. -/
theorem test_mnemonic_text :
    mnemonicText (.seImm 10 0x7F#8) = "SE VA,0x7F" ∧ mnemonicText (.call 0xABC#12) = "CALL 0xABC" ∧
      mnemonicText (.storeRegs 10) = "LD [I],VA" := by decide
theorem test_trace_pair : tracePair (r0.placeWord 0x6005#16) = some (0x200#16, 0x6005#16) := by decide

/-! ## Witnesses: states and operands that meet the hypotheses of the statements

Each theorem is named after its statement. Where a statement has several clauses there is a conjunct for each, at a boundary
value of its range. -/

/-- The machine at the edge of its invariant: the largest pc, one live stack entry of 4096, one cell of memory. -/
def edge : State :=
  { (poke r0 0xFFF 1#8) with pc := 0x10FE#16, sp := 1, stack := r0.stack.set 0 0x1000#16, lastUpdate := 7, clock := 7 }

/-- The reset state with the word placed, one cycle's inputs given. -/
def loaded (w : Word) : State := withInput (r0.placeWord w) 16600 0x0020#16 0xA7#8

/-- The legacy convention with distinct sources. -/
def regs2 : State := { (r0.setV 1 3#8).setV 2 0x80#8 with shiftLegacy := true }

theorem witness_DecodeOfEncode : Instr.WellFormed (.sys 0x0EF#12) ∧ Instr.WellFormed (.drw 15 15 15) := by decide
theorem witness_EncodeOfDecode : decodeWord 0x0FFF#16 = .ok (.sys 0xFFF#12) ∧ decodeWord 0xFF65#16 = .ok (.loadRegs 15) := by
  decide
theorem witness_InvalidWordsAreThoseOfTheTable : InvalidWord 0x5FFF#16 ∧ InvalidWord 0x8008#16 ∧ InvalidWord 0x9001#16 ∧
    InvalidWord 0xE09F#16 ∧ InvalidWord 0xF066#16 ∧ ¬ InvalidWord 0x800E#16 := by
  refine ⟨?_, ?_, ?_, ?_, ?_, ?_⟩ <;> unfold InvalidWord <;> decide
theorem witness_AddWithCarry_SubtractBothWays : (0 : RegIdx) ≠ 15 ∧ (1 : RegIdx) ≠ 0 ∧ (1 : RegIdx) ≠ 15 := by decide
theorem witness_ShiftsByConvention :
    (0x80#8 = if regs2.shiftLegacy = true then regs2.getV 2 else regs2.getV 1) ∧
      (3#8 = if ({ regs2 with shiftLegacy := false }).shiftLegacy = true then regs2.getV 2 else regs2.getV 1) := by decide
theorem witness_SysOnlyAdvances : (0x0E1#12 ≠ 0x0E0#12 ∧ 0x0E1#12 ≠ 0x0EE#12) ∧ (0x0EF#12 ≠ 0x0E0#12 ∧ 0x0EF#12 ≠ 0x0EE#12) := by
  decide
theorem witness_CallPushesAndJumps : (r0.sp.val = (0 : Fin 16).val) ∧ ({ r0 with sp := 15 }.sp.val = (15 : Fin 16).val) ∧
    { r0 with sp := 16 }.sp.val = 16 := by decide
theorem witness_RetPopsIntoPc : ({ r0 with sp := 1 }.sp.val = (0 : Fin 16).val + 1) ∧
    ({ r0 with sp := 16 }.sp.val = (15 : Fin 16).val + 1) ∧ r0.sp.val = 0 := by decide
/-- A slot below the one the call writes, and one above it. -/
theorem witness_CallThenRetComesBack :
    ({ r0 with sp := 15 }.sp.val < 16 ∧ (14 : Fin 16).val ≠ { r0 with sp := 15 }.sp.val) ∧
      r0.sp.val < 16 ∧ (1 : Fin 16).val ≠ r0.sp.val := by decide
theorem witness_GlyphAddressOfDigit : ((r0.setV 3 15#8).getV 3).toNat ≤ 15 ∧ 15 < ((r0.setV 3 16#8).getV 3).toNat := by decide
theorem witness_StoreDecimalDigits :
    (r0.mem.wf = true ∧ { r0 with index := 4093#16 }.index.toNat ≤ 4093) ∧ 4093 < { r0 with index := 4094#16 }.index.toNat := by
  decide
theorem witness_StoreRegisterBlock :
    (r0.mem.wf = true ∧ { r0 with index := 4080#16 }.index.toNat + (15 : RegIdx).val ≤ 4095) ∧
      4095 < { r0 with index := 4081#16 }.index.toNat + (15 : RegIdx).val := by decide
theorem witness_LoadRegisterBlock :
    { r0 with index := 4095#16 }.index.toNat + (0 : RegIdx).val ≤ 4095 ∧
      4095 < { r0 with index := 4096#16 }.index.toNat + (0 : RegIdx).val := by decide
theorem witness_StoreIsSeenByNextFetch :
    r0.mem.wf = true ∧ { r0 with index := 4094#16 }.index.toNat + (1 : RegIdx).val ≤ 4095 ∧
      (1 : RegIdx).val = (0 : RegIdx).val + 1 ∧ (1 : RegIdx).val ≤ (1 : RegIdx).val := by decide

/-- One sprite byte `81` at 0x300, and the pixel in the top left corner set. -/
def corner : State := poke (screen { r0 with index := 0x300#16 } [(0, 0)]) 0x300 0x81#8

/-- Both ranges, a covered pixel that is set, one that is not covered. -/
theorem witness_DrawTogglesSprite :
    ((0 : Fin 16).val = 0 ∨ { r0 with index := 0xFFFF#16 }.index.toNat + (0 : Fin 16).val - 1 ≤ 4095) ∧
      { r0 with index := 0xFF1#16 }.index.toNat + (15 : Fin 16).val - 1 ≤ 4095 ∧
      ((15 : Fin 16).val ≠ 0 ∧ 4095 < { r0 with index := 0xFF2#16 }.index.toNat + (15 : Fin 16).val - 1) ∧
      (SpriteCovers corner 0 1 1 0 0 ∧ corner.pixel 0 0 = true) ∧ ¬ SpriteCovers corner 0 1 1 1 0 := by
  refine ⟨by decide, by decide, by decide, ⟨⟨0, 0, by decide⟩, by decide⟩, ?_⟩
  rintro ⟨row, col, h1, h2, h3, -⟩
  obtain rfl : row = 0 := by simpa using h1
  exact absurd h3 (by decide)
/-- A blank screen: after the first draw no pixel is set, in no place the sprite covers. -/
theorem witness_DrawTogglesSprite_no_collision : ¬ ∃ r q, SpriteCovers r0 0 1 1 r q ∧ r0.pixel r q = true := by
  rintro ⟨r, q, -, h⟩
  revert r q
  decide
theorem witness_DrawTwiceRestoresScreen :
    ((1 : Fin 16).val = 0 ∨ corner.index.toNat + (1 : Fin 16).val - 1 ≤ 4095) ∧
      exec (.drw 0 1 1) corner = .next (after (.drw 0 1 1) corner) ∧
      (after (.drw 0 1 1) corner).getV 0 = corner.getV 0 ∧ (after (.drw 0 1 1) corner).getV 1 = corner.getV 1 :=
  ⟨by decide, rfl, by decide, by decide⟩
theorem witness_KeySkips : ((r0.setV 3 15#8).getV 3).toNat ≤ 15 ∧ 15 < ((r0.setV 3 16#8).getV 3).toNat := by decide
theorem witness_KeyWait :
    let s := { r0 with keys := 0x8089#16, keysPrev := 1#16 }
    (s.keys.getLsbD (3 : Fin 16) = true ∧ s.keysPrev.getLsbD (3 : Fin 16) = false) ∧
      (∀ j : Fin 16, j < 3 → s.keys.getLsbD j = false ∨ s.keysPrev.getLsbD j = true) ∧
      ∀ k : Fin 16, r0.keys.getLsbD k = false ∨ r0.keysPrev.getLsbD k = true := by decide

theorem witness_PressLastsOneCycle :
    (loaded 0x6001#16).Running ∧ step (loaded 0x6001#16) = .next (afterStep (loaded 0x6001#16)) ∧
      (pressed (loaded 0x6001#16).beforeFetch).getLsbD (5 : Fin 16) = true :=
  ⟨by unfold State.Running; decide, rfl, by decide⟩
theorem witness_StepRunsDecodedInstruction :
    (loaded 0xC00F#16).Running ∧ (loaded 0xC00F#16).Fetches (.rnd 0 0x0F#8) ∧
      TimersAndKeysDone (loaded 0xC00F#16) (loaded 0xC00F#16).beforeFetch :=
  ⟨by unfold State.Running; decide, ⟨0xC00F#16, by decide⟩, (timersAndKeysDone_iff _ _).mpr rfl⟩
theorem witness_FetchIsBigEndian :
    { r0 with pc := 4094#16 }.pc.toNat ≤ 4094 ∧ 4094 < { r0 with pc := 4095#16 }.pc.toNat := by decide
theorem witness_FetchOutOfRangeTaken :
    { r0 with pc := 4095#16 }.Running ∧ TimersAndKeysDone { r0 with pc := 4095#16 } { r0 with pc := 4095#16 }.beforeFetch ∧
      4094 < { r0 with pc := 4095#16 }.pc.toNat :=
  ⟨⟨rfl, rfl, Nat.le_refl _⟩, (timersAndKeysDone_iff _ _).mpr rfl, by decide⟩
theorem witness_InvalidOpcodeTaken :
    (loaded 0x8008#16).Running ∧ TimersAndKeysDone (loaded 0x8008#16) (loaded 0x8008#16).beforeFetch ∧
      (loaded 0x8008#16).fetch = some 0x8008#16 ∧ InvalidWord 0x8008#16 :=
  ⟨by unfold State.Running; decide, (timersAndKeysDone_iff _ _).mpr rfl, by decide, by unfold InvalidWord; decide⟩

/-- The host asks to stop. -/
def stopping : State := { r0 with inputs := [{ stopReq := true, now := 9, keyIn := 1#16, rnd := 0#8 }] }

/-- The clock stands at 5 and the host says 4. -/
def backwards : State := withInput { r0 with clock := 5 } 4 0#16 0#8

theorem witness_StopHaltsOnly : stopping.halted = false ∧ stopping.nextInput.stopReq = true := by decide
theorem witness_HaltedForEver : { r0 with halted := true }.halted = true := rfl
theorem witness_OnlyBackwardClockRefused :
    backwards.halted = false ∧ backwards.nextInput.stopReq = false ∧ backwards.nextInput.now < backwards.clock := by decide
theorem witness_EveryCycleCompletes :
    (loaded 0x6001#16).clock ≤ (loaded 0x6001#16).nextInput.now ∧ step backwards = .refused .clockWentBackwards :=
  ⟨by decide, rfl⟩
/-- A faulting and a completing instruction. -/
theorem witness_FaultsArePrecise :
    r0.halted = false ∧ exec .ret r0 = .next (after .ret r0) ∧ (after .ret r0).halted = true ∧
      exec .cls r0 = .next (after .cls r0) ∧ (after .cls r0).halted = false :=
  ⟨rfl, rfl, by decide, rfl, by decide⟩
/-- Both hypotheses, on an instruction that faults and on one that does not. -/
theorem witness_FaultsAreThoseOfTheTable :
    r0.halted = false ∧ exec .ret r0 = .next (after .ret r0) ∧ exec (.ldF 0) r0 = .next (after (.ldF 0) r0) :=
  ⟨rfl, rfl, rfl⟩
/-- Each row of the table of faults, at the first value that faults and the last that does not. -/
theorem witness_FaultsAreThoseOfTheTable_rows :
    (after (.call 0#12) { r0 with sp := 16 }).faultCause = .stackOverflow ∧
      (after (.call 0#12) { r0 with sp := 15 }).halted = false ∧
      (after .ret r0).faultCause = .stackUnderflow ∧ (after .ret { r0 with sp := 1 }).halted = false ∧
      (after (.ldF 0) (r0.setV 0 16#8)).faultCause = .invalidGlyphIndex ∧ (after (.ldF 0) (r0.setV 0 15#8)).halted = false ∧
      (after (.skp 0) (r0.setV 0 16#8)).faultCause = .invalidKeyIndex ∧ (after (.skp 0) (r0.setV 0 15#8)).halted = false ∧
      (after (.sknp 0) (r0.setV 0 16#8)).faultCause = .invalidKeyIndex ∧
      (after (.sknp 0) (r0.setV 0 15#8)).halted = false := by decide
/-- The rows of the range fault, likewise. -/
theorem witness_FaultsAreThoseOfTheTable_ranges :
    (after (.ldB 0) { r0 with index := 4094#16 }).faultCause = .memoryOutOfRange ∧
      (after (.ldB 0) { r0 with index := 4093#16 }).halted = false ∧
      (after (.storeRegs 1) { r0 with index := 4095#16 }).faultCause = .memoryOutOfRange ∧
      (after (.storeRegs 1) { r0 with index := 4094#16 }).halted = false ∧
      (after (.loadRegs 1) { r0 with index := 4095#16 }).faultCause = .memoryOutOfRange ∧
      (after (.loadRegs 1) { r0 with index := 4094#16 }).halted = false ∧
      (after (.drw 0 0 2) { r0 with index := 4095#16 }).faultCause = .memoryOutOfRange ∧
      (after (.drw 0 0 2) { r0 with index := 4094#16 }).halted = false ∧
      (after (.drw 0 0 0) { r0 with index := 0xFFFF#16 }).halted = false := by decide
theorem witness_HaltedOnlyByFaultOrStop :
    (step stopping = .next (afterStep stopping) ∧ (afterStep stopping).halted = true ∧
        TimersAndKeysDone stopping stopping.beforeFetch) ∧
      step (loaded 0x00EE#16) = .next (afterStep (loaded 0x00EE#16)) ∧ (afterStep (loaded 0x00EE#16)).halted = true ∧
        TimersAndKeysDone (loaded 0x00EE#16) (loaded 0x00EE#16).beforeFetch :=
  ⟨⟨rfl, by decide, (timersAndKeysDone_iff _ _).mpr rfl⟩, rfl, by decide, (timersAndKeysDone_iff _ _).mpr rfl⟩
theorem witness_PcAfterInstruction :
    (exec .ret { r0 with sp := 1 } = .next (after .ret { r0 with sp := 1 }) ∧
        (after .ret { r0 with sp := 1 }).halted = false) ∧
      exec .ret r0 = .next (after .ret r0) ∧ (after .ret r0).halted = true := ⟨⟨rfl, by decide⟩, rfl, by decide⟩

/-- `LD B,V0` and `LD [I],V1` about to run at `I = 0x300`, V0 156. -/
def storing (w : Word) : State := withInput ({ (r0.setV 0 0x9C#8) with index := 0x300#16 }.placeWord w) 0 0#16 0#8

theorem witness_MemoryWritersOnly :
    ((storing 0xF033#16).mem.wf = true ∧ step (storing 0xF033#16) = .next (afterStep (storing 0xF033#16)) ∧
        (afterStep (storing 0xF033#16)).mem.read 0x302 ≠ (storing 0xF033#16).mem.read 0x302) ∧
      step (storing 0xF155#16) = .next (afterStep (storing 0xF155#16)) ∧
        (afterStep (storing 0xF155#16)).mem.read 0x300 ≠ (storing 0xF155#16).mem.read 0x300 :=
  ⟨⟨by decide, rfl, by decide⟩, rfl, by decide⟩
theorem witness_ScreenStackIndexWritersOnly :
    step (loaded 0xD005#16) = .next (afterStep (loaded 0xD005#16)) ∧ (afterStep (loaded 0xD005#16)).fb ≠ (loaded 0xD005#16).fb ∧
      step (loaded 0x2300#16) = .next (afterStep (loaded 0x2300#16)) ∧
      (afterStep (loaded 0x2300#16)).sp ≠ (loaded 0x2300#16).sp ∧
      step (loaded 0xA300#16) = .next (afterStep (loaded 0xA300#16)) ∧
      (afterStep (loaded 0xA300#16)).index ≠ (loaded 0xA300#16).index :=
  ⟨rfl, by decide, rfl, by decide, rfl, by decide⟩
theorem witness_FlagWritersOnly :
    (exec (.addReg 1 1) (r0.setV 1 0x80#8) = .next (after (.addReg 1 1) (r0.setV 1 0x80#8)) ∧
        (after (.addReg 1 1) (r0.setV 1 0x80#8)).getV 15 ≠ (r0.setV 1 0x80#8).getV 15) ∧
      exec (.loadRegs 15) r0 = .next (after (.loadRegs 15) r0) ∧ (after (.loadRegs 15) r0).getV 15 ≠ r0.getV 15 :=
  ⟨⟨rfl, by decide⟩, rfl, by decide⟩
/-- The period has elapsed exactly, or not by one, in a cycle that loads no timer. -/
theorem witness_TimersOnlyTickOrLoad :
    ((loaded 0x6001#16).Running ∧ step (loaded 0x6001#16) = .next (afterStep (loaded 0x6001#16)) ∧
        (loaded 0x6001#16).lastUpdate + (loaded 0x6001#16).tickPeriod ≤ (loaded 0x6001#16).nextInput.now ∧
        (¬ ∃ x, (loaded 0x6001#16).Fetches (.ldDtVx x)) ∧ ¬ ∃ x, (loaded 0x6001#16).Fetches (.ldStVx x)) ∧
      (withInput (r0.placeWord 0x6001#16) 16599 0#16 0#8).nextInput.now <
        (withInput (r0.placeWord 0x6001#16) 16599 0#16 0#8).lastUpdate +
          (withInput (r0.placeWord 0x6001#16) 16599 0#16 0#8).tickPeriod := by
  have hf : (loaded 0x6001#16).fetch = some 0x6001#16 := by decide
  have hd : decodeWord 0x6001#16 = .ok (.ldImm 0 1#8) := by decide
  refine ⟨⟨by unfold State.Running; decide, rfl, by decide, ?_, ?_⟩, by decide⟩ <;>
  · rintro ⟨x, op, h, h'⟩
    rw [hf] at h; cases h
    rw [hd] at h'; cases h'
theorem witness_ParametersNeverChange : step (loaded 0x8126#16) = .next (afterStep (loaded 0x8126#16)) := rfl
theorem witness_RandomReachesOnlyRnd :
    (∀ x kk, Instr.ldVxDt 3 ≠ .rnd x kk) ∧ exec (.ldVxDt 3) r0 = .next (after (.ldVxDt 3) r0) := ⟨by simp, rfl⟩
/-- `SHR` for the first clause, `LD ST,Vx` for the second and, as an instruction that is no shift, for the third. -/
theorem witness_SoundTimerAndConventionReachNothingElse :
    ((∀ x, Instr.shr 1 2 ≠ .ldStVx x) ∧ exec (.shr 1 2) r0 = .next (after (.shr 1 2) r0)) ∧
      exec (.ldStVx 3) r0 = .next (after (.ldStVx 3) r0) ∧
      ∀ x y, Instr.ldStVx 3 ≠ .shr x y ∧ Instr.ldStVx 3 ≠ .shl x y := ⟨⟨by simp, rfl⟩, rfl, by simp⟩
/-- The invariant holds at its own edge, and a step runs from there. -/
theorem witness_InvariantKeptByStep : edge.Inv ∧ step edge = .next (afterStep edge) :=
  ⟨⟨by decide, by decide, by decide, by decide, by decide⟩, rfl⟩
theorem witness_ResetLoadsFontAndImage : (List.replicate 3584 0xFF#8).length ≤ 3584 :=
  Nat.le_of_eq List.length_replicate
theorem witness_OverlongImageHaltsReset : 3584 < (List.replicate 3585 0xFF#8).length :=
  Nat.lt_of_lt_of_eq (by decide) List.length_replicate.symm
theorem witness_EqualReadsEqualMemory :
    ((r0.mem.write 0x300 7#8).write 0x300 0#8).wf = true ∧ r0.mem.wf = true ∧
      ∀ a, ((r0.mem.write 0x300 7#8).write 0x300 0#8).read a = r0.mem.read a := by
  refine ⟨by decide, by decide, fun a => ?_⟩
  rw [show (r0.mem.write 0x300 7#8).write 0x300 0#8 = r0.mem from by decide]
theorem witness_PlacedWordRuns : edge.mem.wf = true ∧ decodeTableWord 16 0xC00F = some (.rnd 0 0x0F#8) := by decide
theorem witness_TraceIsWhatRuns :
    tracePair (loaded 0xC00F#16) = some (0x200#16, 0xC00F#16) ∧ (loaded 0xC00F#16).Running ∧
      (loaded 0xC00F#16).Fetches (.rnd 0 0x0F#8) :=
  ⟨by decide, by unfold State.Running; decide, ⟨0xC00F#16, by decide⟩⟩

end Sys2Proof.Tests
end

section
/-! PROOFS. Reset with a configuration: the font written at reset is what unlisted memory reads as anyway, so the default
reset leaves memory with no byte listed (spec/20_memory.md R41, spec/70_reset_and_hazards.md R190, R191). -/

namespace Sys2Proof.Machine

/-! ## Writing what memory reads as anyway -/

theorem Memory.write_background (a : Nat) : Memory.write ⟨[]⟩ a (Memory.background a) = ⟨[]⟩ := by
  simp [Memory.write, Memory.insert, Memory.consCell]

/-- Writing a stretch of the reset contents over memory with no byte listed lists none. -/
theorem Memory.writeList_background (base k : Nat) :
    Memory.writeList ⟨[]⟩ base ((List.range' base k).map Memory.background) = ⟨[]⟩ := by
  induction k generalizing base with
  | zero => rfl
  | succ k ih =>
    rw [List.range'_succ, List.map_cons, Memory.writeList_cons, Memory.write_background, ih]

/-- The default font is the reset contents of its addresses (R41). -/
theorem defaultFont_toList :
    defaultFont.toList = (List.range' Config.fontBase Config.fontSize).map Memory.background := by decide

theorem State.reset_writeList_defaultFont :
    State.reset.mem.writeList Config.fontBase defaultFont.toList = State.reset.mem := by
  rw [defaultFont_toList]
  exact Memory.writeList_background Config.fontBase Config.fontSize

/-! ## The two branches of reset -/

/-- An image that fits is copied to `LOAD_BASE` (R191). -/
theorem State.boot_of_image_fits {c : Config} (h : c.image.length ≤ Config.imageMax) (now : Nat) :
    State.boot c now =
      { State.bootWithoutImage c now with
        mem := (State.bootWithoutImage c now).mem.writeList Config.loadBase c.image } :=
  if_neg (Nat.not_lt.mpr h)

/-- An image that does not fit halts the machine with ImageTooLarge (R192). -/
theorem State.boot_of_image_too_large {c : Config} (h : Config.imageMax < c.image.length) (now : Nat) :
    State.boot c now = (State.bootWithoutImage c now).raise .imageTooLarge (Config.freeOpcode 0) :=
  if_pos h

/-- With no image to copy, the first steps of reset are all of it. -/
theorem State.boot_of_image_nil {c : Config} (h : c.image = []) (now : Nat) :
    State.boot c now = State.bootWithoutImage c now := by
  rw [State.boot_of_image_fits (by simp [h]), h, Memory.writeList_nil]

/-! ## The default reset -/

/-- Settles O56: there is no image to copy, and the default font leaves memory with no byte listed; every other field that
the configuration or the clock sets has its reset value. -/
theorem defaultBootIsReset : Obligations.DefaultBootIsReset := by
  unfold Obligations.DefaultBootIsReset
  rw [State.boot_of_image_nil rfl, State.bootWithoutImage]
  calc
    { State.reset with mem := State.reset.mem.writeList Config.fontBase defaultFont.toList }
      = { State.reset with mem := State.reset.mem } := by rw [State.reset_writeList_defaultFont]
    _ = State.reset := rfl

end Sys2Proof.Machine
end

section
/-! PROOFS. What one instruction leaves behind, said once: it takes a fault, or the pc is what R26 says and only the
instruction's own part of the state differs (spec/10_state.md R26; R13, R14, R19, R47 for the writers). -/

namespace Sys2Proof.Machine

/-! ## The outcome of an instruction that takes no fault -/

/-- The part of the state instruction `i` may write, `s` before it and `t` after: every other field is as before. -/
def FrameOf (i : Instr) (s t : State) : Prop :=
  match i with
  | .cls => t = { s with fb := t.fb, pc := t.pc }
  | .drw _ _ _ => t = { s with fb := t.fb, v := t.v, pc := t.pc }
  | .ret | .call _ => t = { s with stack := t.stack, sp := t.sp, pc := t.pc }
  | .ldI _ | .addI _ | .ldF _ => t = { s with index := t.index, pc := t.pc }
  | .ldDtVx _ => t = { s with dt := t.dt, pc := t.pc }
  | .ldStVx _ => t = { s with st := t.st, pc := t.pc }
  | .ldB _ | .storeRegs _ => t = { s with mem := t.mem, pc := t.pc }
  | .sys _ | .jp _ | .jpV0 _ | .seImm _ _ | .sneImm _ _ | .seReg _ _ | .sneReg _ _ | .skp _ | .sknp _ =>
    t = { s with pc := t.pc }
  | _ => t = { s with v := t.v, pc := t.pc }

/-- The table of R26: `a` is the pc after instruction `i` on `s`, where `i` takes no fault. -/
def PcAfter (i : Instr) (s : State) (a : Addr) : Prop :=
  match i with
  | .jp nnn => a.toNat = nnn.toNat
  | .call nnn => a.toNat = nnn.toNat
  | .ret => ∃ k : Fin 16, s.sp.val = k.val + 1 ∧ a = s.stack[k]
  | .jpV0 nnn => a.toNat = nnn.toNat + (s.getV 0).toNat
  | .seImm x kk => a = if s.getV x = kk then s.pc + 4 else s.pc + 2
  | .sneImm x kk => a = if s.getV x ≠ kk then s.pc + 4 else s.pc + 2
  | .seReg x y => a = if s.getV x = s.getV y then s.pc + 4 else s.pc + 2
  | .sneReg x y => a = if s.getV x ≠ s.getV y then s.pc + 4 else s.pc + 2
  | .skp x => a = if s.keys.getLsbD (s.getV x).toNat = true then s.pc + 4 else s.pc + 2
  | .sknp x => a = if s.keys.getLsbD (s.getV x).toNat = false then s.pc + 4 else s.pc + 2
  | .ldVxK _ => a = if pressed s = 0#16 then s.pc else s.pc + 2
  | _ => a = s.pc + 2

/-- A skip's pc, its condition read as a proposition (R100). -/
theorem State.skipIf_pc_of_iff (s : State) {c : Bool} {p : Prop} [Decidable p] (h : c = true ↔ p) :
    (s.skipIf c).pc = if p then s.pc + 4 else s.pc + 2 := by
  rw [State.skipIf_pc]; exact ite_congr (propext h) (fun _ => rfl) fun _ => rfl

/-- A pressed key makes the press event nonzero. -/
theorem pressed_ne_zero {s : State} {k : Fin 16} (h : (pressed s).getLsbD k = true) : pressed s ≠ 0#16 := by
  intro h0; rw [h0] at h; simp at h

/-- Every outcome of an instruction: one fault taken on the state before it, or a next state with the pc of R26 that
differs in the instruction's own part alone. -/
theorem exec_outcome (i : Instr) (s : State) :
    (∃ cause, cause ≠ .none ∧ exec i s = .next (s.raise cause (encode i))) ∨
      ∃ t, exec i s = .next t ∧ PcAfter i s t.pc ∧ FrameOf i s t := by
  cases i
  case ret =>
    rcases exec_ret_cases s with ⟨k, hk, h⟩ | ⟨_, h⟩
    exacts [.inr ⟨_, h, ⟨k, hk, rfl⟩, rfl⟩, .inl ⟨_, by decide, h⟩]
  case jp nnn => exact .inr ⟨_, rfl, target_toNat nnn, rfl⟩
  case call nnn =>
    rcases exec_call_cases nnn s with ⟨_, h⟩ | ⟨_, h⟩
    exacts [.inr ⟨_, h, target_toNat nnn, rfl⟩, .inl ⟨_, by decide, h⟩]
  case jpV0 nnn => exact .inr ⟨_, rfl, targetV0_toNat nnn _, rfl⟩
  case seImm x kk => exact .inr ⟨_, rfl, s.skipIf_pc_of_iff beq_iff_eq, rfl⟩
  case sneImm x kk => exact .inr ⟨_, rfl, s.skipIf_pc_of_iff bne_iff_ne, rfl⟩
  case seReg x y => exact .inr ⟨_, rfl, s.skipIf_pc_of_iff beq_iff_eq, rfl⟩
  case sneReg x y => exact .inr ⟨_, rfl, s.skipIf_pc_of_iff bne_iff_ne, rfl⟩
  case drw x y n =>
    rcases exec_drw_cases x y n s with ⟨_, h⟩ | ⟨_, h⟩
    exacts [.inr ⟨_, h, rfl, rfl⟩, .inl ⟨_, by decide, h⟩]
  case skp x =>
    rcases exec_skp_cases x s with ⟨_, h⟩ | ⟨_, h⟩
    exacts [.inr ⟨_, h, s.skipIf_pc_of_iff Iff.rfl, rfl⟩, .inl ⟨_, by decide, h⟩]
  case sknp x =>
    rcases exec_sknp_cases x s with ⟨_, h⟩ | ⟨_, h⟩
    exacts [.inr ⟨_, h, s.skipIf_pc_of_iff (by rw [Bool.not_eq_true']), rfl⟩, .inl ⟨_, by decide, h⟩]
  case ldVxK x =>
    rcases exec_ldVxK_cases x s with ⟨_, hp, _, h⟩ | ⟨hp, h⟩
    exacts [.inr ⟨_, h, (if_neg (pressed_ne_zero hp)).symm, rfl⟩, .inr ⟨_, h, (if_pos hp).symm, rfl⟩]
  case ldF x =>
    rcases exec_ldF_cases x s with ⟨_, h⟩ | ⟨_, h⟩
    exacts [.inr ⟨_, h, rfl, rfl⟩, .inl ⟨_, by decide, h⟩]
  case ldB x =>
    rcases exec_ldB_cases x s with ⟨_, h⟩ | ⟨_, h⟩
    exacts [.inr ⟨_, h, rfl, rfl⟩, .inl ⟨_, by decide, h⟩]
  case storeRegs x =>
    rcases exec_storeRegs_cases x s with ⟨_, h⟩ | ⟨_, h⟩
    exacts [.inr ⟨_, h, rfl, rfl⟩, .inl ⟨_, by decide, h⟩]
  case loadRegs x =>
    rcases exec_loadRegs_cases x s with ⟨_, h⟩ | ⟨_, h⟩
    · refine .inr ⟨_, h, ?_, ?_⟩ <;> rw [State.setVList_eq] <;> rfl
    · exact .inl ⟨_, by decide, h⟩
  all_goals exact .inr ⟨_, rfl, rfl, rfl⟩

/-- `exec_outcome` of a known next state. -/
theorem exec_next_outcome {i : Instr} {s t : State} (h : exec i s = .next t) :
    (∃ cause, cause ≠ .none ∧ t = s.raise cause (encode i)) ∨ (PcAfter i s t.pc ∧ FrameOf i s t) := by
  rcases exec_outcome i s with ⟨c, hc, he⟩ | ⟨u, he, hu⟩ <;> rw [h] at he <;> cases he
  exacts [.inl ⟨c, hc, rfl⟩, .inr hu]

/-- No instruction writes the fault record or `halted`, but by taking a fault (R15, R16). -/
theorem FrameOf.keeps_record {i : Instr} {s t : State} (h : FrameOf i s t) :
    t.halted = s.halted ∧ t.faultCause = s.faultCause ∧ t.faultPc = s.faultPc ∧ t.faultOpcode = s.faultOpcode := by
  cases i <;>
    exact ⟨(congrArg State.halted h :), (congrArg State.faultCause h :), (congrArg State.faultPc h :),
      (congrArg State.faultOpcode h :)⟩

/-! ## Who writes each part -/

section
variable {i : Instr} {s t : State} (h : exec i s = .next t)
include h

/-- Only `CLS` and `DRW` write the framebuffer (R19). -/
theorem exec_fb_writers : t.fb = s.fb ∨ i = .cls ∨ ∃ x y n, i = .drw x y n := by
  rcases exec_next_outcome h with ⟨c, -, rfl⟩ | ⟨-, hf⟩
  · exact .inl rfl
  · cases i
    case cls => exact .inr (.inl rfl)
    case drw x y n => exact .inr (.inr ⟨x, y, n, rfl⟩)
    all_goals exact .inl (congrArg State.fb hf :)

/-- Only `LD I`, `ADD I` and `LD F` write the index register (R13). -/
theorem exec_index_writers :
    t.index = s.index ∨ (∃ nnn, i = .ldI nnn) ∨ (∃ x, i = .addI x) ∨ ∃ x, i = .ldF x := by
  rcases exec_next_outcome h with ⟨c, -, rfl⟩ | ⟨-, hf⟩
  · exact .inl rfl
  · cases i
    case ldI nnn => exact .inr (.inl ⟨nnn, rfl⟩)
    case addI x => exact .inr (.inr (.inl ⟨x, rfl⟩))
    case ldF x => exact .inr (.inr (.inr ⟨x, rfl⟩))
    all_goals exact .inl (congrArg State.index hf :)

/-- `RET` gives up the top entry, `CALL` adds the address after it, and nothing else writes the call stack (R14). -/
theorem exec_stack_writers :
    (t.stack = s.stack ∧ t.sp = s.sp) ∨
      (i = .ret ∧ t.stack = s.stack ∧ s.sp.val = t.sp.val + 1) ∨
      ∃ nnn, ∃ hsp : s.sp.val < 16, i = .call nnn ∧ t.stack = s.stack.set s.sp.val (s.pc + 2#16) hsp ∧
        t.sp.val = s.sp.val + 1 := by
  rcases exec_next_outcome h with ⟨c, -, rfl⟩ | ⟨-, hf⟩
  · exact .inl ⟨rfl, rfl⟩
  · cases i
    case ret =>
      rcases exec_ret_cases s with ⟨k, hk, g⟩ | ⟨_, g⟩ <;> rw [h] at g <;> cases g
      exacts [.inr (.inl ⟨rfl, rfl, hk⟩), .inl ⟨rfl, rfl⟩]
    case call nnn =>
      rcases exec_call_cases nnn s with ⟨hsp, g⟩ | ⟨_, g⟩ <;> rw [h] at g <;> cases g
      exacts [.inr (.inr ⟨nnn, hsp, rfl, rfl, rfl⟩), .inl ⟨rfl, rfl⟩]
    all_goals exact .inl ⟨(congrArg State.stack hf :), (congrArg State.sp hf :)⟩

/-- `LD B` and `LD [I]` store their bytes at `I`, all of them below 4096, and nothing else writes memory (R47, R49). -/
theorem exec_mem_writers :
    t.mem = s.mem ∨
      (∃ x, i = .ldB x ∧ s.index.toNat + (bcdDigits (s.getV x)).length ≤ 4096 ∧
        t.mem = s.mem.writeList s.index.toNat (bcdDigits (s.getV x))) ∨
      ∃ x, i = .storeRegs x ∧ s.index.toNat + (s.getVList x).length ≤ 4096 ∧
        t.mem = s.mem.writeList s.index.toNat (s.getVList x) := by
  rcases exec_next_outcome h with ⟨c, -, rfl⟩ | ⟨-, hf⟩
  · exact .inl rfl
  · cases i
    case ldB x =>
      rcases exec_ldB_cases x s with ⟨hk, g⟩ | ⟨_, g⟩ <;> rw [h] at g <;> cases g
      exacts [.inr (.inl ⟨x, rfl, by rw [bcdDigits_length]; omega, rfl⟩), .inl rfl]
    case storeRegs x =>
      rcases exec_storeRegs_cases x s with ⟨hk, g⟩ | ⟨_, g⟩ <;> rw [h] at g <;> cases g
      exacts [.inr (.inr ⟨x, rfl, by rw [State.getVList_length]; omega, rfl⟩), .inl rfl]
    all_goals exact .inl (congrArg State.mem hf :)

end

end Sys2Proof.Machine
end

section
/-! PROOFS. The machine's invariant, clause by clause: each instruction keeps it, then each step of a cycle does
(spec/10_state.md R14, R16, R18, R27; spec/20_memory.md R40). -/

namespace Sys2Proof.Machine

/-! ## The invariant at reset -/

/-- Settles O52, clause by clause: no byte listed, no live stack entry, an empty record. -/
theorem invariantAtReset : Obligations.InvariantAtReset where
  memory := Memory.reset_wf
  pcBound := by decide
  stackBound _ hk := absurd hk (Nat.not_lt_zero _)
  lastUpdateBound := le_rfl
  recordEmpty _ := ⟨rfl, rfl, rfl⟩

/-! ## Instructions -/

/-- Past a pc that could be fetched from, the additions of R26 do not wrap (R27). -/
theorem pc_add_toNat {a : Addr} (h : a.toNat ≤ 4094) : (a + 2).toNat = a.toNat + 2 ∧ (a + 4).toNat = a.toNat + 4 := by
  simp only [BitVec.toNat_add, BitVec.reduceToNat]; omega

/-- From a pc that could be fetched from, every row of R26 gives a pc of at most 0x10FE (R27). -/
theorem PcAfter.le {i : Instr} {s : State} {a : Addr} (h : PcAfter i s a) (hp : s.pc.toNat ≤ 4094)
    (hs : ∀ k : Fin 16, k.val < s.sp.val → (s.stack[k]).toNat ≤ 4096) : a.toNat ≤ 0x10FE := by
  obtain ⟨h2, h4⟩ := pc_add_toNat hp
  cases i
  case jp nnn | call nnn => have := nnn.isLt; simp only [PcAfter] at h; omega
  case jpV0 nnn => have := nnn.isLt; have := (s.getV 0).isLt; simp only [PcAfter] at h; omega
  case ret =>
    obtain ⟨k, hk, rfl⟩ := h
    have := hs k (by omega)
    omega
  case seImm | sneImm | seReg | sneReg | skp | sknp | ldVxK => cases h; split <;> omega
  all_goals cases h; omega

section
variable {i : Instr} {s t : State} (h : exec i s = .next t)
include h

/-- Every store keeps memory in canonical form. -/
theorem exec_keeps_wf (hm : s.mem.wf = true) : t.mem.wf = true := by
  rcases exec_mem_writers h with e | ⟨x, -, hb, e⟩ | ⟨x, -, hb, e⟩ <;> rw [e]
  exacts [hm, Memory.writeList_wf hm hb, Memory.writeList_wf hm hb]

/-- A call pushes an address of at most 4096, a return only gives up an entry (R14). -/
theorem exec_keeps_stackBound (hp : s.pc.toNat ≤ 4094)
    (hs : ∀ k : Fin 16, k.val < s.sp.val → (s.stack[k]).toNat ≤ 4096) :
    ∀ k : Fin 16, k.val < t.sp.val → (t.stack[k]).toNat ≤ 4096 := by
  intro k hk
  rcases exec_stack_writers h with ⟨e, e'⟩ | ⟨-, e, e'⟩ | ⟨_, hsp, -, e, e'⟩ <;> simp only [e]
  · exact hs k (e' ▸ hk)
  · exact hs k (by omega)
  · rw [Fin.getElem_fin, Vector.getElem_set]
    split
    · have := (pc_add_toNat hp).1
      change (s.pc + 2).toNat ≤ 4096
      omega
    · exact hs k (by omega)

end

theorem State.Inv.raise {s : State} (hi : s.Inv) (c : FaultCause) (op : Word) : (s.raise c op).Inv :=
  { hi with recordEmpty := fun h => Bool.noConfusion h }

/-- An instruction at a pc that was fetched from keeps the invariant. -/
theorem State.Inv.exec {i : Instr} {s t : State} (hi : s.Inv) (hp : s.pc.toNat ≤ 4094) (h : exec i s = .next t) :
    t.Inv := by
  rcases exec_next_outcome h with ⟨c, -, rfl⟩ | ⟨hpc, hf⟩
  · exact hi.raise c _
  · obtain ⟨hh, hc, hfp, hop⟩ := hf.keeps_record
    obtain ⟨-, -, hl, hk, -⟩ := exec_keeps h
    exact
      { memory := exec_keeps_wf h hi.memory
        pcBound := hpc.le hp hi.stackBound
        stackBound := exec_keeps_stackBound h hp hi.stackBound
        lastUpdateBound := by rw [hl, hk]; exact hi.lastUpdateBound
        recordEmpty := by rw [hh, hc, hfp, hop]; exact hi.recordEmpty }

/-! ## The rest of a cycle -/

theorem State.Inv.takeInput_stop {s : State} (hi : s.Inv) : s.takeInput.stop.Inv :=
  { hi with recordEmpty := fun h => Bool.noConfusion h }

/-- The timers take the clock's reading and the clock moves with them (R18, R176). -/
theorem State.Inv.beforeFetch {s : State} (hi : s.Inv) (hc : s.clock ≤ s.nextInput.now) : s.beforeFetch.Inv where
  memory := by simpa using hi.memory
  pcBound := by simpa using hi.pcBound
  stackBound := by simpa using hi.stackBound
  lastUpdateBound := by
    have := hi.lastUpdateBound
    rw [State.beforeFetch_lastUpdate, State.beforeFetch_clock]
    split <;> omega
  recordEmpty := by simpa using hi.recordEmpty

/-- Settles O51: each way a cycle ends keeps the invariant. -/
theorem invariantKeptByStep : Obligations.InvariantKeptByStep := by
  intro s t hi h
  rcases step_cases s with
    ⟨-, g⟩ | ⟨-, -, g⟩ | ⟨-, -, -, g⟩ | ⟨-, -, hc, ⟨-, g⟩ | ⟨op, -, -, -, -, g⟩ | ⟨op, i, hp, -, -, g⟩⟩ <;> rw [h] at g
  · cases g; exact hi
  · cases g; exact hi.takeInput_stop
  · cases g
  · cases g; exact (hi.beforeFetch hc).raise _ _
  · cases g; exact (hi.beforeFetch hc).raise _ _
  · exact (hi.beforeFetch hc).exec (by simpa using hp) g.symm

end Sys2Proof.Machine
end

section
/-! PROOFS. Rules of the whole machine that follow from what one instruction and one cycle can do (spec/10_state.md R11, R13,
R14, R19, R25, R26, R28). -/

namespace Sys2Proof.Machine

/-- Settles O43: a fault keeps the pc, and every other outcome is a row of R26. -/
theorem pcAfterInstruction : Obligations.PcAfterInstruction := by
  intro i s t hh h
  rcases exec_next_outcome h with ⟨c, -, rfl⟩ | ⟨hpc, hf⟩
  · exact ⟨fun _ => rfl, fun hrun => Bool.noConfusion hrun⟩
  · have hrun : t.halted = false := hf.keeps_record.1.trans hh
    refine ⟨fun hhalt => Bool.noConfusion (hrun.symm.trans hhalt), fun _ => ?_⟩
    cases i <;> exact hpc

/-- Settles O45: outside an instruction a cycle writes none of the three, and an instruction that does is the one fetched. -/
theorem screenStackIndexWritersOnly : Obligations.ScreenStackIndexWritersOnly := by
  intro s t h
  rcases step_next_cases h with (rfl | rfl | ⟨c, op, rfl⟩) | ⟨i, hi, h⟩
  · simp
  · simp
  · simp
  · refine ⟨fun hne => ?_, fun hne => ?_, fun hne => ?_⟩
    · rcases exec_fb_writers h with e | rfl | ⟨x, y, n, rfl⟩
      · exact absurd e (by simpa using hne)
      · exact .inl hi
      · exact .inr ⟨x, y, n, hi⟩
    · rcases exec_stack_writers h with ⟨e, e'⟩ | ⟨rfl, -⟩ | ⟨nnn, -, rfl, -⟩
      · simp [e, e'] at hne
      · exact .inl hi
      · exact .inr ⟨nnn, hi⟩
    · rcases exec_index_writers h with e | ⟨nnn, rfl⟩ | ⟨x, rfl⟩ | ⟨x, rfl⟩
      · exact absurd e (by simpa using hne)
      · exact .inl ⟨nnn, hi⟩
      · exact .inr (.inl ⟨x, hi⟩)
      · exact .inr (.inr ⟨x, hi⟩)

/-! ## Who writes `VF` -/

theorem flagByte_eq_zero_or_one (b : Bool) : flagByte b = 0#8 ∨ flagByte b = 1#8 := by
  cases b
  exacts [.inl rfl, .inr rfl]

/-- A result with its flag leaves the flag in `VF`, which is 0 or 1 (R11, R81). -/
theorem setResultAndFlag_regF (s : State) (x : RegIdx) (b : Byte) (f : Bool) :
    (s.setResultAndFlag x b f).advance.getV 15 = 0#8 ∨ (s.setResultAndFlag x b f).advance.getV 15 = 1#8 := by
  rw [State.getV_advance, State.getV_setResultAndFlag, if_pos (show (15 : RegIdx) = regF from rfl)]
  exact flagByte_eq_zero_or_one f

/-- A result with no flag changes `VF` only where `VF` is its destination. -/
theorem eq_regF_of_setV_changes {s : State} {x : RegIdx} {b : Byte}
    (h : (s.setV x b).advance.getV 15 ≠ s.getV 15) : x = 15 := by
  by_contra hx
  exact h ((State.setV_advance_spec s x b).2.1 15 (Ne.symm hx))

/-- A block load changes `VF` only where `VF` is its last register. -/
theorem eq_regF_of_setVList_changes {s : State} {x : RegIdx} {bs : List Byte} (hb : bs.length = x.val + 1)
    (h : (s.setVList 0 bs).advance.getV 15 ≠ s.getV 15) : x = 15 := by
  by_contra hx
  have hne : x.val ≠ 15 := fun e => hx (Fin.ext e)
  rw [State.getV_advance, State.getV_setVList _ _ _ (by omega), if_neg (by simp; omega)] at h
  exact h rfl

/-- Settles O46: an instruction that writes a register writes its destination, a flag last, or a block up to `V[x]`. -/
theorem flagWritersOnly : Obligations.FlagWritersOnly := by
  intro i s t h hne
  rcases exec_next_outcome h with ⟨c, -, rfl⟩ | ⟨-, hf⟩
  · exact absurd rfl hne
  cases i
  case addReg x y | sub x y | shr x y | subn x y | shl x y =>
    cases h; exact .inl ⟨⟨x, y, by simp⟩, setResultAndFlag_regF ..⟩
  case drw x y n =>
    refine .inl ⟨⟨x, y, by simp⟩, ?_⟩
    rcases exec_drw_cases x y n s with ⟨_, g⟩ | ⟨_, g⟩ <;> rw [h] at g <;> cases g
    · rw [State.getV_advance, regF, State.getV_setV_self]; exact flagByte_eq_zero_or_one _
    · exact absurd rfl hne
  case ldImm x _ | addImm x _ | rnd x _ | ldReg x _ | orReg x _ | andReg x _ | xorReg x _ | ldVxDt x =>
    cases h; obtain rfl := eq_regF_of_setV_changes hne; simp
  case ldVxK x =>
    rcases exec_ldVxK_cases x s with ⟨_, _, _, g⟩ | ⟨_, g⟩ <;> rw [h] at g <;> cases g
    · obtain rfl := eq_regF_of_setV_changes hne; simp
    · exact absurd rfl hne
  case loadRegs x =>
    rcases exec_loadRegs_cases x s with ⟨_, g⟩ | ⟨_, g⟩ <;> rw [h] at g <;> cases g
    · obtain rfl := eq_regF_of_setVList_changes (Memory.readList_length ..) hne; simp
    · exact absurd rfl hne
  all_goals exact absurd (congrArg (State.getV · 15) hf :) hne

/-! ## Every cycle completes -/

/-- The one refusal is that of a clock that goes backwards (R196 (c)). -/
theorem step_refused {s : State} {r : Refusal} (h : step s = .refused r) :
    r = .clockWentBackwards ∧ s.nextInput.now < s.clock := by
  rcases step_cases s with
    ⟨-, g⟩ | ⟨-, -, g⟩ | ⟨-, -, hc, g⟩ | ⟨-, -, -, ⟨-, g⟩ | ⟨_, _, -, -, -, g⟩ | ⟨_, i, -, -, -, g⟩⟩ <;> rw [h] at g
  · cases g
  · cases g
  · cases g; exact ⟨rfl, hc⟩
  · cases g
  · cases g
  · obtain ⟨t, ht⟩ := exec_next i s.beforeFetch
    rw [ht] at g; cases g

/-- Settles O39: a step answers a next state or the one refusal, and that one only when the clock went backwards. -/
theorem everyCycleCompletes : Obligations.EveryCycleCompletes := by
  refine fun s => ⟨fun hc => ?_, fun f => (nomatch f), fun r h => (step_refused h).1⟩
  rcases step_next_or_refused s with h | h
  · exact h
  · exact absurd (step_refused h).2 (Nat.not_lt.mpr hc)

end Sys2Proof.Machine
end

section
/-! PROOFS. A word that decodes to an instruction is that instruction's own word (spec/30_encoding.md R61, R64, R65). -/

namespace Sys2Proof

section
variable {op : Word} {i : Instr} {a : Nat}

/-- Format `NNN`: a word with the major opcode `a` is `annn` of its own fields. -/
theorem encNnn_of_fieldA (h : (fieldA op).toNat = a) : encNnn (BitVec.ofNat 4 a) (fieldNnn op) = op := by
  rw [← h, BitVec.ofNat_toNat, BitVec.setWidth_eq, encNnn_fields]

/-- Format `XKK`: a word with the major opcode `a` is `axkk` of its own fields. -/
theorem encXkk_of_fieldA (h : (fieldA op).toNat = a) :
    encXkk (BitVec.ofNat 4 a) (fieldX op) (fieldKk op) = op := by
  rw [← h, BitVec.ofNat_toNat, BitVec.setWidth_eq, encXkk_fields]

/-- Format `X`: a word with the major opcode `a` and the low byte `kk` is `axkk`. -/
theorem encXkk_of_fields {kk : Nat} (h : (fieldA op).toNat = a) (hk : (fieldKk op).toNat = kk) :
    encXkk (BitVec.ofNat 4 a) (fieldX op) (BitVec.ofNat 8 kk) = op := by
  rw [← hk, BitVec.ofNat_toNat, BitVec.setWidth_eq, encXkk_of_fieldA h]

/-- Format `XYN`: a word with the major opcode `a` is `axyd` of its own fields. -/
theorem encXyd_of_fieldA (h : (fieldA op).toNat = a) :
    encXyd (BitVec.ofNat 4 a) (fieldX op) (fieldY op) (fieldD op) = op := by
  rw [← h, BitVec.ofNat_toNat, BitVec.setWidth_eq, encXyd_fields]

/-- Format `XY`: a word with the major opcode `a` and the last nibble `d` is `axyd`. -/
theorem encXyd_of_fields {d : Nat} (h : (fieldA op).toNat = a) (hd : (fieldD op).toNat = d) :
    encXyd (BitVec.ofNat 4 a) (fieldX op) (fieldY op) (BitVec.ofNat 4 d) = op := by
  rw [← hd, BitVec.ofNat_toNat, BitVec.setWidth_eq, encXyd_of_fieldA h]

theorem encode_decode0 (h : (fieldA op).toNat = 0) : encode (decode0 op) = op := by
  simp only [decode0]
  split
  · next e => exact e.symm
  · split
    · next e => exact e.symm
    · exact encNnn_of_fieldA h

theorem encode_of_decode8 (h : (fieldA op).toNat = 8) (hi : decode8 op = .ok i) : encode i = op := by
  simp only [decode8] at hi
  split at hi <;> cases hi <;> exact encXyd_of_fields h ‹_›

theorem encode_of_decodeE (h : (fieldA op).toNat = 14) (hi : decodeE op = .ok i) : encode i = op := by
  simp only [decodeE] at hi
  split at hi
  · next hk => cases hi; exact encXkk_of_fields h (congrArg BitVec.toNat hk)
  · split at hi
    · next hk => cases hi; exact encXkk_of_fields h (congrArg BitVec.toNat hk)
    · cases hi

theorem encode_of_decodeF (h : (fieldA op).toNat = 15) (hi : decodeF op = .ok i) : encode i = op := by
  simp only [decodeF] at hi
  split at hi <;> cases hi <;> exact encXkk_of_fields h ‹_›

/-- The encoder gives back the word an instruction was decoded from (R64, R65). -/
theorem encode_of_decodeWord (hi : decodeWord op = .ok i) : encode i = op := by
  unfold decodeWord at hi
  split at hi
  case h_1 h => cases hi; exact encode_decode0 h
  case h_9 h => exact encode_of_decode8 h hi
  case h_6 h | h_10 h =>
    split at hi
    · next hd => cases hi; exact encXyd_of_fields h (congrArg BitVec.toNat hd)
    · cases hi
  case h_14 h => cases hi; exact encXyd_of_fieldA h
  case h_15 h => exact encode_of_decodeE h hi
  case h_16 =>
    have hlt := (fieldA op).isLt
    have h : (fieldA op).toNat = 15 := by simp only [imp_false] at *; omega
    exact encode_of_decodeF h hi
  case h_2 h | h_3 h | h_11 h | h_12 h => cases hi; exact encNnn_of_fieldA h
  case h_4 h | h_5 h | h_7 h | h_8 h | h_13 h => cases hi; exact encXkk_of_fieldA h

end

end Sys2Proof
end

section
/-! PROOFS. A cycle that reaches its fetch (spec/10_state.md R25): it runs the decoded instruction, it halts only by taking a
fault, and a word placed at the pc is the word it runs. -/

namespace Sys2Proof.Machine

/-- A running machine that fetches `i` executes it after the timers and the sample (R25). -/
theorem step_of_fetches {s : State} {i : Instr} (hr : s.Running) (hf : s.Fetches i) : step s = exec i s.beforeFetch := by
  obtain ⟨hh, hs, hc⟩ := hr
  obtain ⟨op, hop, hd⟩ := hf
  rw [← State.beforeFetch_fetch] at hop
  rw [step, cycle, if_neg (by simp [hh]), if_neg (by simp [hs]), if_neg (Nat.not_lt.mpr hc)]
  simp only [fetchDecodeExecute, hop, hd]

/-- Settles O32: the state the statement describes is the one before the fetch. -/
theorem stepRunsDecodedInstruction : Obligations.StepRunsDecodedInstruction := by
  intro s u i hr hf hu
  rw [(timersAndKeysDone_iff s u).mp hu]
  exact step_of_fetches hr hf

/-- Settles O42: the fault is one of the fetch, of the decode, or of the instruction, whose own word is the one fetched. -/
theorem haltedOnlyByFaultOrStop : Obligations.HaltedOnlyByFaultOrStop := by
  intro s t u hh h ht hu
  obtain rfl := (timersAndKeysDone_iff s u).mp hu
  rcases step_cases s with
    ⟨hh', -⟩ | ⟨-, hs, -⟩ | ⟨-, -, -, g⟩ | ⟨-, -, -, ⟨hp, g⟩ | ⟨op, e, hp, hf, -, g⟩ | ⟨op, i, hp, hf, hd, g⟩⟩
  · rw [hh] at hh'; cases hh'
  · exact .inl hs
  · rw [h] at g; cases g
  · rw [h] at g; cases g
    exact .inr ⟨_, _, by decide, State.raise_faultTaken .., fun hle => absurd hle (Nat.not_le.mpr hp)⟩
  · rw [h] at g; cases g
    exact .inr ⟨_, _, by decide, State.raise_faultTaken .., fun _ => hf⟩
  · rcases exec_next_outcome (g.symm.trans h) with ⟨c, hc, rfl⟩ | ⟨-, hfr⟩
    · rw [encode_of_decodeWord hd]
      exact .inr ⟨c, op, hc, State.raise_faultTaken .., fun _ => hf⟩
    · rw [hfr.keeps_record.1, State.beforeFetch_halted, hh] at ht; cases ht

/-! ## A word placed where the next cycle fetches -/

theorem State.readyToFetch_pc_le (s : State) : s.readyToFetch.pc.toNat ≤ 4094 := by
  simp only [State.readyToFetch]
  split
  · decide
  · omega

/-- A state made ready runs: it is not halted, and its inputs neither stop the cycle nor turn the clock back. -/
theorem State.readyToFetch_running (s : State) : s.readyToFetch.Running := by
  by_cases h : s.inputsAllowFetch = true
  · have hn : s.readyToFetch.nextInput = s.nextInput := by
      simp only [State.readyToFetch, State.nextInput, if_pos h]
    simp only [State.inputsAllowFetch, Bool.and_eq_true, Bool.not_eq_true', decide_eq_true_eq] at h
    exact ⟨rfl, by rw [hn]; exact h.1, by rw [hn]; exact h.2⟩
  · simp [State.Running, State.readyToFetch, State.nextInput, h]

/-- The word placed at a pc that can be fetched from is the word fetched (R43). -/
theorem State.placeWord_fetch {s : State} (hm : s.mem.wf = true) (hp : s.pc.toNat ≤ 4094) (op : Word) :
    (s.placeWord op).fetch = some op := by
  have hb : s.pc.toNat + (bytesOfWord op).length ≤ 4096 := by simp only [bytesOfWord, List.length]; omega
  have h0 : (s.placeWord op).mem.read s.pc.toNat = upperByte op :=
    Memory.read_writeList_at hm hb (j := 0) Nat.zero_lt_two
  have h1 : (s.placeWord op).mem.read (s.pc.toNat + 1) = lowerByte op :=
    Memory.read_writeList_at hm hb (j := 1) Nat.one_lt_two
  rcases (s.placeWord op).fetch_cases with ⟨-, hf⟩ | ⟨hgt, -⟩
  · rw [hf, show (s.placeWord op).pc = s.pc from rfl, h0, h1, wordOfBytes_bytes]
  · exact absurd hp (Nat.not_le.mpr hgt)

/-- A table word that reads as an instruction decodes to it. -/
theorem decodeWord_of_decodeTableWord {nbits w : Nat} {i : Instr} (h : decodeTableWord nbits w = some i) :
    decodeWord (tableWord nbits w) = .ok i := by
  simp only [decodeTableWord, bytesOfWord, decode, wordOfBytes_bytes] at h
  cases hd : decodeWord (tableWord nbits w) <;> rw [hd] at h <;> cases h
  rfl

/-- Settles O58: the state made ready runs, and what it fetches is the word placed. -/
theorem placedWordRuns : Obligations.PlacedWordRuns := by
  intro s w i hm hi
  refine step_of_fetches s.readyToFetch_running ⟨tableWord 16 w, ?_, decodeWord_of_decodeTableWord hi⟩
  exact State.placeWord_fetch (s := s.readyToFetch) hm s.readyToFetch_pc_le _

end Sys2Proof.Machine
end

section
/-! PROOFS. What a reset with an image that fits leaves in the registers and in memory (spec/10_state.md R29,
spec/70_reset_and_hazards.md R190, R191). -/

namespace Sys2Proof.Machine

/-- Above the font, memory that nothing has written reads 0 (R29). -/
theorem Memory.background_of_le {a : Nat} (h : 80 ≤ a) : Memory.background a = 0#8 :=
  if_neg (Nat.not_lt.mpr h)

theorem font_length (c : Config) : c.font.toList.length = 80 := c.font.length_toList

theorem font_fits (c : Config) : Config.fontBase + c.font.toList.length ≤ 4096 := by
  rw [font_length]; decide

/-- Memory with the font and nothing else is in canonical form. -/
theorem State.bootWithoutImage_wf (c : Config) (now : Nat) : (State.bootWithoutImage c now).mem.wf = true :=
  Memory.writeList_wf Memory.reset_wf (font_fits c)

/-- The font stands at 0x000 (R41). -/
theorem State.bootWithoutImage_read_font (c : Config) (now : Nat) (k : Fin 80) :
    (State.bootWithoutImage c now).mem.read k.val = c.font[k] := by
  have hk : k.val < c.font.toList.length := by rw [font_length]; exact k.isLt
  have h := Memory.read_writeList_at Memory.reset_wf (font_fits c) hk
  rw [Config.fontBase, Nat.zero_add, List.getD_eq_getElem _ _ hk] at h
  exact h

/-- Every byte above the font is 0 before the image is copied (R29). -/
theorem State.bootWithoutImage_read_above (c : Config) (now : Nat) {a : Nat} (h : 80 ≤ a) :
    (State.bootWithoutImage c now).mem.read a = 0#8 := by
  have ha : Config.fontBase + c.font.toList.length ≤ a := by rw [font_length, Config.fontBase]; omega
  exact (Memory.read_writeList_outside Memory.reset_wf (font_fits c) (.inr ha)).trans (Memory.background_of_le h)

section
variable {c : Config} (h : c.image.length ≤ 3584) (now : Nat)
include h

theorem image_fits : Config.loadBase + c.image.length ≤ 4096 := by
  rw [Config.loadBase]; omega

/-- Outside the image, the bytes are those before the image was copied (R191). -/
theorem State.boot_read_outside {a : Nat} (ha : a < 0x200 ∨ 0x200 + c.image.length ≤ a) :
    (State.boot c now).mem.read a = (State.bootWithoutImage c now).mem.read a := by
  rw [State.boot_of_image_fits h]
  exact Memory.read_writeList_outside (State.bootWithoutImage_wf c now) (image_fits h) ha

/-- The image stands at 0x200 (R191). -/
theorem State.boot_read_image (j : Nat) (hj : j < c.image.length) :
    (State.boot c now).mem.read (0x200 + j) = c.image[j] := by
  rw [State.boot_of_image_fits h, ← List.getD_eq_getElem _ 0#8 hj]
  exact Memory.read_writeList_at (State.bootWithoutImage_wf c now) (image_fits h) hj

end

/-- Settles O54: a register holds its value of the reset state, and a byte is one of the font, one of the image, or 0. -/
theorem resetLoadsFontAndImage : Obligations.ResetLoadsFontAndImage := by
  intro c now h s
  have hs : s = { State.bootWithoutImage c now with mem := s.mem } := by
    simp only [s, State.boot_of_image_fits h]
  have hfont (k : Fin 80) : s.mem.read k.val = c.font[k] := by
    rw [State.boot_read_outside h now (.inl (by omega)), State.bootWithoutImage_read_font]
  have hzero (a : Nat) (ha : 80 ≤ a) (hout : a < 0x200 ∨ 0x200 + c.image.length ≤ a) : s.mem.read a = 0#8 := by
    rw [State.boot_read_outside h now hout, State.bootWithoutImage_read_above c now ha]
  have hv (r : RegIdx) : s.getV r = 0#8 := by
    rw [hs]; exact Vector.getElem_replicate _
  have hstack (k : Fin 16) : s.stack[k] = 0#16 := by
    rw [hs]; exact Vector.getElem_replicate _
  have hpixel (r : Fin 32) (q : Fin 64) : s.pixel r q = false := by
    rw [hs]; exact Framebuffer.pixel_blank r q
  refine ⟨?_, hv, ?_, ?_, hstack, ?_, ?_, ?_, hpixel, ?_, ?_, ?_, ?_, ?_, ?_, ?_, ?_, hfont,
    fun a h80 hlt => hzero a h80 (.inl hlt), State.boot_read_image h now,
    fun a hle _ => hzero a (by omega) (.inr hle)⟩ <;> rw [hs] <;> rfl

end Sys2Proof.Machine
end

section
/-! PROOFS. Memory seen through its reads: the fetch, who changes a byte, a store seen by the next fetch, and equal reads as
equal data (spec/20_memory.md R40, R43, R47, R50, R53). -/

namespace Sys2Proof.Machine

/-! ## The fetch -/

/-- A pc of at most 4094 fetches the word of the two bytes there, the lower address's byte the upper one (R43). -/
theorem State.fetch_of_le {s : State} (h : s.pc.toNat ≤ 4094) :
    ∃ op, s.fetch = some op ∧
      op.toNat = 256 * (s.mem.read s.pc.toNat).toNat + (s.mem.read (s.pc.toNat + 1)).toNat := by
  rcases s.fetch_cases with ⟨-, hf⟩ | ⟨hgt, -⟩
  · exact ⟨_, hf, wordOfBytes_toNat _ _⟩
  · exact absurd h (Nat.not_le.mpr hgt)

/-- A pc above 4094 fetches nothing (R50). -/
theorem State.fetch_of_gt {s : State} (h : 4094 < s.pc.toNat) : s.fetch = none := by
  rcases s.fetch_cases with ⟨hle, -⟩ | ⟨-, hf⟩
  · exact absurd h (Nat.not_lt.mpr hle)
  · exact hf

/-- The fetch of any state, its pc put at an address of at most 4094 (R43). -/
theorem State.fetch_at (s : State) {a : Nat} (h : a ≤ 4094) :
    ∃ op, State.fetch { s with pc := BitVec.ofNat 16 a } = some op ∧
      op.toNat = 256 * (s.mem.read a).toNat + (s.mem.read (a + 1)).toNat := by
  have hpc : (BitVec.ofNat 16 a).toNat = a := by rw [BitVec.toNat_ofNat]; omega
  have hf := State.fetch_of_le (s := { s with pc := BitVec.ofNat 16 a }) (by rw [hpc]; exact h)
  rwa [hpc] at hf

/-- Settles O33, one clause on each side of the range check. -/
theorem fetchIsBigEndian : Obligations.FetchIsBigEndian :=
  fun _ => ⟨State.fetch_of_le, State.fetch_of_gt⟩

/-- Settles O34: a running machine goes on to its fetch, which here is out of range. -/
theorem fetchOutOfRangeTaken : Obligations.FetchOutOfRangeTaken := by
  intro s u ⟨hh, hs, hc⟩ hu hp
  obtain rfl := (timersAndKeysDone_iff s u).mp hu
  rcases step_cases s with
    ⟨hh', -⟩ | ⟨-, hs', -⟩ | ⟨-, -, hc', -⟩ | ⟨-, -, -, ⟨-, g⟩ | ⟨_, _, hle, -⟩ | ⟨_, _, hle, -⟩⟩
  · exact absurd hh' (by simp [hh])
  · exact absurd hs' (by simp [hs])
  · exact absurd hc (Nat.not_le.mpr hc')
  · exact ⟨_, g, State.raise_faultTaken ..⟩
  · exact absurd hp (Nat.not_lt.mpr hle)
  · exact absurd hp (Nat.not_lt.mpr hle)

/-! ## A store and the fetch after it -/

/-- Register `r` of a stored block reads back at `base + r` (R134). -/
theorem read_writeList_getVList {s : State} {base : Nat} {x r : RegIdx} (hm : s.mem.wf = true)
    (hb : base + x.val ≤ 4095) (hr : r.val ≤ x.val) :
    (s.mem.writeList base (s.getVList x)).read (base + r.val) = s.getV r := by
  have hlen := s.getVList_length x
  rw [Memory.read_writeList_at hm (by omega) (by omega), State.getVList_getD s x r hr]

/-- Settles O25: the block is in range, so it is stored, and the two bytes fetched are two of its registers. -/
theorem storeIsSeenByNextFetch : Obligations.StoreIsSeenByNextFetch := by
  intro x r r' s hm hb hr' hle
  rcases exec_storeRegs_cases x s with ⟨-, hexec⟩ | ⟨hgt, -⟩
  · obtain ⟨op, hf, hop⟩ := State.fetch_at
      { s with mem := s.mem.writeList s.index.toNat (s.getVList x) }.advance (a := s.index.toNat + r.val) (by omega)
    refine ⟨_, op, hexec, hf, ?_⟩
    rw [hop, Nat.add_assoc, ← hr', State.advance_mem, read_writeList_getVList hm hb (by omega),
      read_writeList_getVList hm hb hle]
  · exact absurd hb (Nat.not_le.mpr hgt)

/-! ## Who changes a byte -/

/-- A byte that consecutive writes change is one of those written. -/
theorem Memory.in_range_of_read_writeList_ne {m : Memory} (hm : m.wf = true) {base a : Nat} {bs : List Byte}
    (hb : base + bs.length ≤ 4096) (hne : (m.writeList base bs).read a ≠ m.read a) :
    base ≤ a ∧ a < base + bs.length := by
  by_contra hout
  exact hne (Memory.read_writeList_outside hm hb (by omega))

/-- Settles O44: outside an instruction a cycle writes no memory, and the two instructions that do store their bytes at
`I`. -/
theorem memoryWritersOnly : Obligations.MemoryWritersOnly := by
  intro s t a hm h hne
  rcases step_next_cases h with (rfl | rfl | ⟨c, op, rfl⟩) | ⟨i, hi, hexec⟩
  · exact absurd rfl hne
  · exact absurd rfl hne
  · simp at hne
  · have hw := exec_mem_writers hexec
    rw [State.beforeFetch_mem, State.beforeFetch_index] at hw
    rcases hw with e | ⟨x, rfl, hb, e⟩ | ⟨x, rfl, hb, e⟩ <;> rw [e] at hne
    · exact absurd rfl hne
    · obtain ⟨hlo, hhi⟩ := Memory.in_range_of_read_writeList_ne hm hb hne
      rw [bcdDigits_length] at hhi
      exact .inl ⟨x, hi, hlo, hhi⟩
    · obtain ⟨hlo, hhi⟩ := Memory.in_range_of_read_writeList_ne hm hb hne
      rw [State.getVList_length] at hhi
      exact .inr ⟨x, hi, hlo, by omega⟩

/-! ## Equal reads -/

/-- A listed byte differs from the reset contents, so a list that reads the same lists an address no higher. -/
theorem Memory.Canonical.exists_head_le {lo lo' : Nat} {c : Host.Cell} {rest l : List Host.Cell}
    (hc : Memory.Canonical lo (c :: rest)) (hl : Memory.Canonical lo' l)
    (hread : Memory.readCells (c :: rest) c.1 = Memory.readCells l c.1) : ∃ d tail, l = d :: tail ∧ d.1 ≤ c.1 := by
  obtain ⟨-, -, hne, -⟩ := hc
  rw [Memory.readCells_cons, if_pos rfl] at hread
  cases l with
  | nil => exact absurd hread hne
  | cons d tail =>
    refine ⟨d, tail, rfl, Nat.le_of_not_lt fun hlt => ?_⟩
    obtain ⟨-, hrest⟩ := hl
    have habove : Memory.Canonical (c.1 + 1) (d :: tail) := ⟨hlt, hrest⟩
    exact hne (hread.trans (Memory.readCells_of_canonical (Nat.lt_succ_self _) habove))

/-- The tail of a canonical list reads as the reset contents at the head's address, and as the list everywhere else. -/
theorem Memory.readCells_tail {lo : Nat} {c : Host.Cell} {rest : List Host.Cell}
    (h : Memory.Canonical lo (c :: rest)) (a : Nat) :
    Memory.readCells rest a = if c.1 = a then Memory.background a else Memory.readCells (c :: rest) a := by
  obtain ⟨-, -, -, hrest⟩ := h
  rw [Memory.readCells_cons]
  split
  · next ha => exact Memory.readCells_of_canonical (by omega) hrest
  · rfl

/-- Two canonical lists that read the same are the same list: neither head can come first, so the heads are one cell, and
past it the tails read the same. -/
theorem Memory.Canonical.ext {lo lo' : Nat} {l l' : List Host.Cell} (h : Memory.Canonical lo l)
    (h' : Memory.Canonical lo' l') (hread : ∀ a, Memory.readCells l a = Memory.readCells l' a) : l = l' := by
  induction l generalizing lo lo' l' with
  | nil =>
    cases l' with
    | nil => rfl
    | cons d tail =>
      obtain ⟨_, _, hcons, -⟩ := h'.exists_head_le h (hread d.1).symm
      cases hcons
  | cons c rest ih =>
    obtain ⟨d, tail, rfl, hle⟩ := h.exists_head_le h' (hread c.1)
    obtain ⟨_, _, hcons, hge⟩ := h'.exists_head_le h (hread d.1).symm
    cases hcons
    have haddr : c.1 = d.1 := Nat.le_antisymm hge hle
    have hbyte : c.2 = d.2 := by
      have hhead := hread c.1
      rwa [Memory.readCells_cons, Memory.readCells_cons, if_pos rfl, if_pos haddr.symm] at hhead
    have htail (a : Nat) : Memory.readCells rest a = Memory.readCells tail a := by
      rw [Memory.readCells_tail h, Memory.readCells_tail h', haddr, hread]
    obtain ⟨-, -, -, hrest⟩ := h
    obtain ⟨-, -, -, hrest'⟩ := h'
    rw [Prod.ext haddr hbyte, ih hrest hrest' htail]

/-- Settles O57: the lists of two canonical memories are canonical, and they read the same. -/
theorem equalReadsEqualMemory : Obligations.EqualReadsEqualMemory := by
  intro m m' h h' hread
  rw [Memory.wf_iff_canonical] at h h'
  exact congrArg Memory.mk (h.ext h' hread)

end Sys2Proof.Machine
end

section
/-! PROOFS. The decoder and the encoder agree, and the decoder refuses the words of R66 alone (spec/30_encoding.md R60 to
R66; spec/60_exceptions.md R163). -/

namespace Sys2Proof

/-! ## An encoded instruction decodes to itself -/

/-- A word of the group 0 that is neither fixed word is `SYS` (R64). -/
theorem decode0_encNnn {nnn : BitVec 12} (hcls : nnn ≠ 0x0E0#12) (hret : nnn ≠ 0x0EE#12) :
    decode0 (encNnn 0x0#4 nnn) = .sys nnn := by
  have hne (c : Word) (h : nnn ≠ fieldNnn c) : encNnn 0x0#4 nnn ≠ c := fun e => h (by rw [← e, fieldNnn_encNnn])
  rw [decode0, if_neg (hne 0x00E0#16 hcls), if_neg (hne 0x00EE#16 hret), fieldNnn_encNnn]

/-- The one check of well-formedness: the two fixed words are no `SYS` (R64). -/
theorem wellFormed_sys_iff (nnn : BitVec 12) : (Instr.sys nnn).WellFormed ↔ nnn ≠ 0x0E0#12 ∧ nnn ≠ 0x0EE#12 := by
  simp [Instr.WellFormed, Instr.wellFormed]

/-- The decoder gives back a well-formed instruction from its word: group by group, the fields of an encoded word are
those it was encoded from (R64, R65). -/
theorem decodeWord_encode {i : Instr} (h : i.WellFormed) : decodeWord (encode i) = .ok i := by
  cases i
  case cls | ret => decide
  case sys nnn =>
    obtain ⟨hcls, hret⟩ := (wellFormed_sys_iff nnn).mp h
    simp [encode, decodeWord, decode0_encNnn hcls hret]
  case jp | call | ldI | jpV0 => simp [encode, decodeWord]
  case seImm | sneImm | ldImm | addImm | rnd => simp [encode, decodeWord]
  case seReg | sneReg | drw => simp [encode, decodeWord]
  case ldReg | orReg | andReg | xorReg | addReg | sub | shr | subn | shl =>
    simp [encode, decodeWord, decode8]
  case skp | sknp => simp [encode, decodeWord, decodeE]
  case ldVxDt | ldVxK | ldDtVx | ldStVx | addI | ldF | ldB | storeRegs | loadRegs =>
    simp [encode, decodeWord, decodeF]

/-- The decoder reads the word at the front of the bytes and leaves the rest (R43, R60). -/
theorem decode_bytesOfWord {op : Word} {i : Instr} (h : decodeWord op = .ok i) (rest : List Byte) :
    decode (bytesOfWord op ++ rest) = .ok (i, rest) := by
  simp only [bytesOfWord, List.cons_append, List.nil_append, decode, wordOfBytes_bytes, h]

/-- Settles O1: the fields of the word select the instruction's own row. -/
theorem decodeOfEncode : Obligations.DecodeOfEncode :=
  fun _ h => ⟨decodeWord_encode h, decode_bytesOfWord (decodeWord_encode h)⟩

/-! ## A decoded word is its instruction's word -/

/-- No word decodes to a `SYS` that stands for `CLS` or `RET`: those two words take precedence (R64). -/
theorem wellFormed_of_decodeWord {op : Word} {i : Instr} (h : decodeWord op = .ok i) : i.WellFormed := by
  obtain rfl := encode_of_decodeWord h
  cases i
  case sys nnn =>
    rw [wellFormed_sys_iff]
    constructor <;> rintro rfl <;> revert h <;> decide
  all_goals rfl

/-- Settles O2: the word is rebuilt from its fields, and `SYS` has only the words the fixed ones leave. -/
theorem encodeOfDecode : Obligations.EncodeOfDecode :=
  fun _ _ h => ⟨wellFormed_of_decodeWord h, encode_of_decodeWord h⟩

/-! ## The words the decoder refuses -/

/-- The answer `r` for the word `op` is the refusal of that word where `p` holds, and an instruction elsewhere. -/
def RefusedExactlyIf (op : Word) (p : Prop) (r : Except DecodeError Instr) : Prop :=
  (p → r = .error (.invalidOpcode op)) ∧ (¬ p → ∃ i, r = .ok i)

section
variable {op : Word} {p q : Prop} {r : Except DecodeError Instr}

theorem RefusedExactlyIf.of_iff (h : RefusedExactlyIf op q r) (hpq : p ↔ q) : RefusedExactlyIf op p r := by
  rwa [propext hpq]

theorem refusedExactlyIf_ok (hp : ¬ p) (i : Instr) : RefusedExactlyIf op p (.ok i) :=
  ⟨fun h => absurd h hp, fun _ => ⟨i, rfl⟩⟩

theorem refusedExactlyIf_error (hp : p) : RefusedExactlyIf op p (.error (.invalidOpcode op)) :=
  ⟨fun _ => rfl, fun h => absurd hp h⟩

end

section
variable (op : Word)

/-- The groups 5 and 9 refuse a last nibble other than 0. -/
theorem refusedExactlyIf_lastNibble (i : Instr) :
    RefusedExactlyIf op (op.toNat % 16 ≠ 0) (if fieldD op = 0#4 then .ok i else .error (.invalidOpcode op)) := by
  rw [← fieldD_toNat]
  split
  · next h => exact refusedExactlyIf_ok (by simp [h]) i
  · next h => exact refusedExactlyIf_error fun h0 => h (BitVec.eq_of_toNat_eq h0)

theorem decode8_refusedExactlyIf :
    RefusedExactlyIf op (op.toNat % 16 ∈ [0x8, 0x9, 0xA, 0xB, 0xC, 0xD, 0xF]) (decode8 op) := by
  rw [← fieldD_toNat]
  have hlt := (fieldD op).isLt
  simp only [decode8]
  split
  case h_10 => exact refusedExactlyIf_error (by simp only [imp_false, List.mem_cons, List.not_mem_nil] at *; omega)
  all_goals exact refusedExactlyIf_ok (by simp [*]) _

theorem decodeE_refusedExactlyIf : RefusedExactlyIf op (op.toNat % 256 ∉ [0x9E, 0xA1]) (decodeE op) := by
  rw [← fieldKk_toNat]
  unfold decodeE
  split
  · next h => exact refusedExactlyIf_ok (by simp [h]) _
  split
  · next h => exact refusedExactlyIf_ok (by simp [h]) _
  · exact refusedExactlyIf_error (by simp_all [← BitVec.toNat_inj])

theorem decodeF_refusedExactlyIf :
    RefusedExactlyIf op (op.toNat % 256 ∉ [0x07, 0x0A, 0x15, 0x18, 0x1E, 0x29, 0x33, 0x55, 0x65]) (decodeF op) := by
  rw [← fieldKk_toNat]
  simp only [decodeF]
  split
  case h_10 => exact refusedExactlyIf_error (by simp_all)
  all_goals exact refusedExactlyIf_ok (by simp [*]) _

end

namespace Machine

/-- Within one major opcode, R66 is at most one of its five groups. -/
theorem decodeWord_refusedExactlyIf (op : Word) : RefusedExactlyIf op (InvalidWord op) (decodeWord op) := by
  unfold decodeWord InvalidWord
  rw [← fieldA_toNat]
  split
  case h_6 h | h_10 h => exact (refusedExactlyIf_lastNibble op _).of_iff (by simp [h])
  case h_9 h => exact (decode8_refusedExactlyIf op).of_iff (by simp [h])
  case h_15 h => exact (decodeE_refusedExactlyIf op).of_iff (by simp [h])
  case h_16 =>
    have hlt := (fieldA op).isLt
    have h : (fieldA op).toNat = 15 := by simp only [imp_false] at *; omega
    exact (decodeF_refusedExactlyIf op).of_iff (by simp [h])
  case h_1 h | h_2 h | h_3 h | h_4 h | h_5 h | h_7 h | h_8 h | h_11 h | h_12 h | h_13 h | h_14 h =>
    exact refusedExactlyIf_ok (by simp [h]) _

/-- Settles O3: the claim is the decoder's refusal rule, word by word. -/
theorem invalidWordsAreThoseOfTheTable : Obligations.InvalidWordsAreThoseOfTheTable :=
  decodeWord_refusedExactlyIf

/-- Settles O4: the decoder runs on each word. -/
theorem sampleWordsDecode : Obligations.SampleWordsDecode := by
  unfold Obligations.SampleWordsDecode; decide

/-! ## An invalid word in a cycle -/

/-- A running machine goes on to its fetch (R25). -/
theorem step_of_running {s : State} (hr : s.Running) : step s = fetchDecodeExecute s.beforeFetch := by
  obtain ⟨hh, hs, hc⟩ := hr
  rw [step, cycle, if_neg (by simp [hh]), if_neg (by simp [hs]), if_neg (Nat.not_lt.mpr hc)]

/-- A running machine that fetches a word the decoder refuses takes InvalidOpcode after the timers and the sample
(R25, R163). -/
theorem step_of_fetch_refused {s : State} {op : Word} {e : DecodeError} (hr : s.Running) (hf : s.fetch = some op)
    (hd : decodeWord op = .error e) : step s = .next (s.beforeFetch.raise .invalidOpcode op) := by
  rw [step_of_running hr]
  simp only [fetchDecodeExecute, State.beforeFetch_fetch, hf, hd]

/-- Settles O35: the decoder refuses the word, so the fault of the decode is taken. -/
theorem invalidOpcodeTaken : Obligations.InvalidOpcodeTaken := by
  intro s u op hr hu hf hop
  obtain rfl := (timersAndKeysDone_iff s u).mp hu
  exact ⟨_, step_of_fetch_refused hr hf ((decodeWord_refusedExactlyIf op).1 hop), State.raise_faultTaken ..⟩

end Machine

end Sys2Proof
end

section
/-! PROOFS. Register loads, arithmetic, logic and shifts (spec/40_arith_logic.md R80 to R93): each word is the
instruction's own, and each instruction is one write with or without a flag. -/

namespace Sys2Proof.Machine

/-- A well-formed instruction is decoded from the number that is its word (R62, R64). -/
theorem decodeWord_of_encode_eq {op : Word} {i : Instr} (h : encode i = op) (hi : i.WellFormed) :
    decodeWord op = .ok i :=
  h ▸ decodeWord_encode hi

/-! ## Instructions with a result and no flag -/

/-- Settles O5: the constant is the result written to the destination alone. -/
theorem loadConstant : Obligations.LoadConstant := fun x kk s =>
  ⟨decodeWord_of_encode_eq (encXkk_eq_wordXkk 6 x kk) rfl, _, rfl, s.setV_advance_spec x kk⟩

/-- Settles O6: the source is read before the one write, so `x = y` is no exception. -/
theorem copyRegister : Obligations.CopyRegister := fun x y s =>
  ⟨decodeWord_of_encode_eq (encXyd_eq_wordXyd 8 x y 0) rfl, _, rfl, s.setV_advance_spec x (s.getV y)⟩

/-- Settles O7: the sum of two bytes is the sum modulo 256, written to the destination alone. -/
theorem addConstantSetsNoFlag : Obligations.AddConstantSetsNoFlag := by
  intro x kk s
  obtain ⟨hx, hframe⟩ := s.setV_advance_spec x (s.getV x + kk)
  exact ⟨decodeWord_of_encode_eq (encXkk_eq_wordXkk 7 x kk) rfl, _, rfl, by rw [hx, BitVec.toNat_add], hframe⟩

/-- Settles O8: each result's bits are those of the operands, and it is written to the destination alone. -/
theorem logicIsBitwiseAndLeavesFlag : Obligations.LogicIsBitwiseAndLeavesFlag := by
  intro x y s
  obtain ⟨hor, hor_frame⟩ := s.setV_advance_spec x (s.getV x ||| s.getV y)
  obtain ⟨hand, hand_frame⟩ := s.setV_advance_spec x (s.getV x &&& s.getV y)
  obtain ⟨hxor, hxor_frame⟩ := s.setV_advance_spec x (s.getV x ^^^ s.getV y)
  exact
    ⟨⟨decodeWord_of_encode_eq (encXyd_eq_wordXyd 8 x y 1) rfl, _, rfl,
        fun k _ => by rw [hor, BitVec.getLsbD_or], hor_frame⟩,
      ⟨decodeWord_of_encode_eq (encXyd_eq_wordXyd 8 x y 2) rfl, _, rfl,
        fun k _ => by rw [hand, BitVec.getLsbD_and], hand_frame⟩,
      ⟨decodeWord_of_encode_eq (encXyd_eq_wordXyd 8 x y 3) rfl, _, rfl,
        fun k _ => by rw [hxor, BitVec.getLsbD_xor], hxor_frame⟩⟩

/-! ## Flags and results as numbers -/

theorem flagByte_carryFlag_toNat (u v : Byte) :
    (flagByte (carryFlag u v)).toNat = if u.toNat + v.toNat > 255 then 1 else 0 := by
  simp only [flagByte_toNat, carryFlag, decide_eq_true_eq]

theorem flagByte_noBorrowFlag_toNat (u v : Byte) :
    (flagByte (noBorrowFlag u v)).toNat = if u.toNat > v.toNat then 1 else 0 := by
  simp only [flagByte_toNat, noBorrowFlag, decide_eq_true_eq]

/-- The bit a right shift drops is the remainder by 2 (R91). -/
theorem flagByte_shrFlag_toNat (src : Byte) : (flagByte (shrFlag src)).toNat = src.toNat % 2 := by
  rw [flagByte_toNat, shrFlag, BitVec.getLsbD, Nat.testBit_zero]
  simp only [decide_eq_true_eq]; split <;> omega

/-- The bit a left shift drops is the quotient by 128 (R93). -/
theorem flagByte_shlFlag_toNat (src : Byte) : (flagByte (shlFlag src)).toNat = src.toNat / 128 := by
  have := src.isLt
  rw [flagByte_toNat, shlFlag, BitVec.getLsbD, Nat.testBit_eq_decide_div_mod_eq]
  simp only [decide_eq_true_eq]; split <;> omega

/-- The difference of two bytes, the borrow lent by 256 (R90, R92). -/
theorem byte_sub_toNat (u v : Byte) : (u - v).toNat = (u.toNat + 256 - v.toNat) % 256 := by
  rw [BitVec.toNat_sub]; omega

theorem byte_shiftRight_one_toNat (src : Byte) : (src >>> 1).toNat = src.toNat / 2 := by
  rw [BitVec.toNat_ushiftRight, Nat.shiftRight_one]

theorem byte_shiftLeft_one_toNat (src : Byte) : (src <<< 1).toNat = src.toNat * 2 % 256 := by
  rw [BitVec.toNat_shiftLeft, Nat.shiftLeft_eq, Nat.pow_one]

/-! ## Instructions with a result and a flag -/

/-- An instruction that writes a result and then its flag, both given as numbers: the flag survives when the destination
is `VF` (R81). -/
theorem exists_next_of_resultAndFlag {i : Instr} {s : State} {x : RegIdx} {b : Byte} {f : Bool} {flag result : Nat}
    (h : exec i s = .next (s.setResultAndFlag x b f).advance) (hf : (flagByte f).toNat = flag) (hb : b.toNat = result) :
    ∃ t, exec i s = .next t ∧ (t.getV 15).toNat = flag ∧ (x ≠ 15 → (t.getV x).toNat = result) ∧
      (∀ r, r ≠ x → r ≠ 15 → t.getV r = s.getV r) ∧ t.pc = s.pc + 2 ∧ OnlyRegsAndPc s t := by
  obtain ⟨hflag, hresult, hframe⟩ := s.setResultAndFlag_spec x b f
  exact ⟨_, h, by rw [hflag, ← flagByte_toNat, hf], fun hx => by rw [hresult hx, hb], hframe⟩

/-- Settles O9: the flag is the carry of the operands read before either write. -/
theorem addWithCarry : Obligations.AddWithCarry := fun x y _ =>
  ⟨decodeWord_of_encode_eq (encXyd_eq_wordXyd 8 x y 4) rfl,
    exists_next_of_resultAndFlag rfl (flagByte_carryFlag_toNat ..) (BitVec.toNat_add ..)⟩

/-- Settles O10: the two subtractions differ in which operand is the minuend. -/
theorem subtractBothWays : Obligations.SubtractBothWays := fun x y _ =>
  ⟨⟨decodeWord_of_encode_eq (encXyd_eq_wordXyd 8 x y 5) rfl,
      exists_next_of_resultAndFlag rfl (flagByte_noBorrowFlag_toNat ..) (byte_sub_toNat ..)⟩,
    ⟨decodeWord_of_encode_eq (encXyd_eq_wordXyd 8 x y 7) rfl,
      exists_next_of_resultAndFlag rfl (flagByte_noBorrowFlag_toNat ..) (byte_sub_toNat ..)⟩⟩

/-- Settles O11: both conventions shift the one source byte of R82. -/
theorem shiftsByConvention : Obligations.ShiftsByConvention := by
  intro x y s src hsrc
  obtain rfl : src = shiftSource s x y := hsrc
  exact
    ⟨⟨decodeWord_of_encode_eq (encXyd_eq_wordXyd 8 x y 6) rfl,
        exists_next_of_resultAndFlag rfl (flagByte_shrFlag_toNat _) (byte_shiftRight_one_toNat _)⟩,
      ⟨decodeWord_of_encode_eq (encXyd_eq_wordXyd 8 x y 14) rfl,
        exists_next_of_resultAndFlag rfl (flagByte_shlFlag_toNat _) (byte_shiftLeft_one_toNat _)⟩⟩

end Sys2Proof.Machine
end

section
/-! PROOFS. The conditional skips on registers (spec/41_skip.md R100 to R104): each is one skip, taken when its comparison
holds or when it fails. -/

namespace Sys2Proof.Machine

section
variable {i : Instr} {s : State} {c : Bool} {p : Prop} [Decidable p] (h : exec i s = .next (s.skipIf c))
include h

/-- A skip taken when `p` holds (R100). -/
theorem exists_next_of_skipIf (hc : c = true ↔ p) :
    ∃ t, exec i s = .next t ∧ t.pc = (if p then s.pc + 4 else s.pc + 2) ∧ OnlyPc s t :=
  ⟨_, h, s.skipIf_pc_of_iff hc, rfl, fun _ => rfl⟩

/-- A skip taken when `p` fails (R100). -/
theorem exists_next_of_skipIf_not (hc : c = true ↔ ¬ p) :
    ∃ t, exec i s = .next t ∧ t.pc = (if p then s.pc + 2 else s.pc + 4) ∧ OnlyPc s t := by
  rw [← ite_not]; exact exists_next_of_skipIf h hc

end

/-- Settles O12: `SE` skips when the comparison of R101 or R103 holds, `SNE` when that of R102 or R104 fails. -/
theorem skipsOnRegisters : Obligations.SkipsOnRegisters :=
  ⟨fun x kk _ =>
      ⟨⟨decodeWord_of_encode_eq (encXkk_eq_wordXkk 3 x kk) rfl, exists_next_of_skipIf rfl beq_iff_eq⟩,
        ⟨decodeWord_of_encode_eq (encXkk_eq_wordXkk 4 x kk) rfl, exists_next_of_skipIf_not rfl bne_iff_ne⟩⟩,
    fun x y _ =>
      ⟨⟨decodeWord_of_encode_eq (encXyd_eq_wordXyd 5 x y 0) rfl, exists_next_of_skipIf rfl beq_iff_eq⟩,
        ⟨decodeWord_of_encode_eq (encXyd_eq_wordXyd 9 x y 0) rfl, exists_next_of_skipIf_not rfl bne_iff_ne⟩⟩⟩

end Sys2Proof.Machine
end

section
/-! PROOFS. Jump, call, return and SYS (spec/42_jump_call_return.md R110 to R115): the two outcomes of a call and of a
return by the depth of the stack, and a return that gives back what a call pushed. -/

namespace Sys2Proof.Machine

/-! ## A call and a return at a known depth -/

/-- Below a full stack, `CALL` stores at the slot `k` that `sp` names and counts up (R114). -/
theorem exec_call_of_sp_eq {s : State} {k : Fin 16} (hk : s.sp.val = k.val) (nnn : BitVec 12) :
    exec (.call nnn) s = .next ({ s with stack := s.stack.set k (s.pc + 2), sp := k.succ }.setPc (target nnn)) := by
  rcases exec_call_cases nnn s with ⟨hlt, h⟩ | ⟨hfull, -⟩
  · obtain rfl : k = ⟨s.sp.val, hlt⟩ := Fin.ext hk.symm
    exact h
  · omega

/-- On a full stack, `CALL` pushes nothing (R164). -/
theorem exec_call_of_full {s : State} (hk : s.sp.val = 16) (nnn : BitVec 12) :
    exec (.call nnn) s = .next (s.raise .stackOverflow (encode (.call nnn))) := by
  rcases exec_call_cases nnn s with ⟨hlt, -⟩ | ⟨-, h⟩
  · omega
  · exact h

/-- Above an empty stack, `RET` counts down to the slot `k` and takes the entry there (R112). -/
theorem exec_ret_of_sp_eq_succ {s : State} {k : Fin 16} (hk : s.sp.val = k.val + 1) :
    exec .ret s = .next ({ s with sp := k.castSucc }.setPc s.stack[k]) := by
  rcases exec_ret_cases s with ⟨k', hk', h⟩ | ⟨hempty, -⟩
  · obtain rfl : k' = k := Fin.ext (by omega)
    exact h
  · omega

/-- On an empty stack, `RET` pops nothing (R165). -/
theorem exec_ret_of_empty {s : State} (hk : s.sp.val = 0) :
    exec .ret s = .next (s.raise .stackUnderflow (encode .ret)) := by
  rcases exec_ret_cases s with ⟨k, hk', -⟩ | ⟨-, h⟩
  · omega
  · exact h

/-- What `CALL` leaves, `RET` undoes but for the slot written: the entry it takes is the one just pushed. -/
theorem exec_ret_after_call (s : State) (k : Fin 16) (a : Addr) :
    exec .ret ({ s with stack := s.stack.set k (s.pc + 2), sp := k.succ }.setPc a) =
      .next ({ s with stack := s.stack.set k (s.pc + 2), sp := k.castSucc }.setPc (s.pc + 2)) := by
  have htop : (s.stack.set k (s.pc + 2))[k] = s.pc + 2 := Vector.getElem_set_self _
  rw [exec_ret_of_sp_eq_succ (k := k) rfl, State.setPc_stack, htop]
  rfl

/-- A write to slot `k` of the stack leaves the other slots. -/
theorem stack_set_getElem_ne (st : Vector Addr 16) (a : Addr) {j k : Fin 16} (h : j ≠ k) : (st.set k a)[j] = st[j] :=
  Vector.getElem_set_ne _ _ fun e => h (Fin.ext e.symm)

/-! ## The statements of the family -/

/-- Settles O17: the return takes the entry the call pushed, and the one slot written is the one at the old `sp`. -/
theorem callThenRetComesBack : Obligations.CallThenRetComesBack := by
  intro nnn s hsp
  let k : Fin 16 := ⟨s.sp.val, hsp⟩
  exact ⟨_, _, exec_call_of_sp_eq (k := k) rfl nnn, exec_ret_after_call s k _, rfl, rfl,
    fun j hj => stack_set_getElem_ne _ _ (k := k) fun e => hj (congrArg Fin.val e)⟩

/-- Settles O13: `nnn` selects nothing, but the two fixed words are not `SYS`. -/
theorem sysOnlyAdvances : Obligations.SysOnlyAdvances := fun nnn _ =>
  ⟨fun hcls hret =>
      decodeWord_of_encode_eq (encNnn_eq_wordNnn 0 nnn) ((wellFormed_sys_iff nnn).mpr ⟨hcls, hret⟩),
    _, rfl, rfl, rfl, fun _ => rfl⟩

/-- Settles O14: both targets fit in 16 bits, so neither is reduced. -/
theorem jumpsSetPc : Obligations.JumpsSetPc := fun nnn s =>
  ⟨⟨decodeWord_of_encode_eq (encNnn_eq_wordNnn 1 nnn) rfl, _, rfl, target_toNat nnn, rfl, fun _ => rfl⟩,
    ⟨decodeWord_of_encode_eq (encNnn_eq_wordNnn 11 nnn) rfl, _, rfl, targetV0_toNat nnn (s.getV 0), rfl,
      fun _ => rfl⟩⟩

/-- Settles O15: the slot written is the one `sp` names, and the fault records the instruction's own word. -/
theorem callPushesAndJumps : Obligations.CallPushesAndJumps := by
  intro nnn s
  have hword : encode (.call nnn) = wordNnn 2 nnn := encNnn_eq_wordNnn 2 nnn
  refine ⟨decodeWord_of_encode_eq hword rfl, fun k hk => ?_, fun hfull => ?_⟩
  · exact ⟨_, exec_call_of_sp_eq hk nnn, Vector.getElem_set_self _, fun _ hj => stack_set_getElem_ne _ _ hj, rfl,
      target_toNat nnn, rfl, fun _ => rfl⟩
  · exact ⟨_, exec_call_of_full hfull nnn, hword ▸ State.raise_faultTaken ..⟩

/-- Settles O16: a pop reads its slot and does not write it. -/
theorem retPopsIntoPc : Obligations.RetPopsIntoPc := by
  refine ⟨decodeWord_encode (i := .ret) rfl, fun s => ⟨fun k hk => ?_, fun hempty => ?_⟩⟩
  · exact ⟨_, exec_ret_of_sp_eq_succ hk, rfl, rfl, rfl, rfl, fun _ => rfl⟩
  · exact ⟨_, exec_ret_of_empty hempty, State.raise_faultTaken ..⟩

end Sys2Proof.Machine
end

section
/-! PROOFS. The random byte and the timers (spec/43_random_timers.md R120 to R123), and what the random byte, `ST` and
the shift convention can reach: an instruction that does not read one of them passes it on unseen (R82, R172, R180). -/

namespace Sys2Proof.Machine

/-! ## The state with another random byte, `ST` or shift convention -/

/-- The state with this cycle's random byte, `ST` and the shift convention each put through a function; `id` leaves one
alone. -/
def State.mapRndStShift (fr fs : Byte → Byte) (fc : Bool → Bool) (s : State) : State :=
  { s with rnd := fr s.rnd, st := fs s.st, shiftLegacy := fc s.shiftLegacy }

section
variable (fr fs : Byte → Byte) (fc : Bool → Bool) (s : State)

/-! The reads and writes the instructions are made of do not see the three. -/

@[simp] theorem State.mapRndStShift_getV (x : RegIdx) : (s.mapRndStShift fr fs fc).getV x = s.getV x := rfl
@[simp] theorem State.mapRndStShift_getVList (x : RegIdx) :
    (s.mapRndStShift fr fs fc).getVList x = s.getVList x := rfl
@[simp] theorem State.mapRndStShift_index : (s.mapRndStShift fr fs fc).index = s.index := rfl
@[simp] theorem State.mapRndStShift_loadBytes (base k : Nat) :
    (s.mapRndStShift fr fs fc).loadBytes base k = s.loadBytes base k := rfl
@[simp] theorem keyLevel_mapRndStShift (b : Byte) : keyLevel (s.mapRndStShift fr fs fc) b = keyLevel s b := rfl
@[simp] theorem pressed_mapRndStShift : pressed (s.mapRndStShift fr fs fc) = pressed s := rfl

@[simp] theorem State.mapRndStShift_storeBytes (base : Nat) (bs : List Byte) :
    (s.mapRndStShift fr fs fc).storeBytes base bs = (s.storeBytes base bs).map (mapRndStShift fr fs fc) := by
  unfold State.storeBytes
  split <;> rfl

@[simp] theorem State.mapRndStShift_setVList (start : Nat) (bs : List Byte) :
    (s.mapRndStShift fr fs fc).setVList start bs = (s.setVList start bs).mapRndStShift fr fs fc := by
  induction bs generalizing s start with
  | nil => rfl
  | cons b bs ih => exact ih (s.setV _ b) (start + 1)

end

/-! ## What each of the three reaches -/

section
variable {i : Instr} {fr fs : Byte → Byte} {fc : Bool → Bool}
  (hr : (∃ x kk, i = .rnd x kk) → fr = id) (hs : (∃ x, i = .ldStVx x) → fs = id)
  (hc : (∃ x y, i = .shr x y ∨ i = .shl x y) → fc = id)
include hr hs hc

/-- Where only a field that the instruction neither reads nor overwrites is another, the instruction does the same and
passes the field on. Only `RND` reads the random byte (R120), only `SHR` and `SHL` the shift convention (R82); no
instruction reads `ST`, but `LD ST,Vx` overwrites it (R123). -/
theorem exec_mapRndStShift (s : State) :
    ∃ t, exec i s = .next t ∧ exec i (s.mapRndStShift fr fs fc) = .next (t.mapRndStShift fr fs fc) := by
  cases i
  case rnd x kk => obtain rfl := hr ⟨x, kk, rfl⟩; exact ⟨_, rfl, rfl⟩
  case ldStVx x => obtain rfl := hs ⟨x, rfl⟩; exact ⟨_, rfl, rfl⟩
  case shr x y | shl x y => obtain rfl := hc ⟨x, y, by simp⟩; exact ⟨_, rfl, rfl⟩
  case ret =>
    rcases exec_ret_cases s with ⟨k, hk, h⟩ | ⟨hempty, h⟩
    exacts [⟨_, h, exec_ret_of_sp_eq_succ (s := s.mapRndStShift fr fs fc) hk⟩,
      ⟨_, h, exec_ret_of_empty (s := s.mapRndStShift fr fs fc) hempty⟩]
  case call nnn =>
    rcases exec_call_cases nnn s with ⟨hlt, h⟩ | ⟨hfull, h⟩
    exacts [⟨_, h, exec_call_of_sp_eq (s := s.mapRndStShift fr fs fc) (k := ⟨s.sp.val, hlt⟩) rfl nnn⟩,
      ⟨_, h, exec_call_of_full (s := s.mapRndStShift fr fs fc) hfull nnn⟩]
  case drw x y n | loadRegs x =>
    simp only [exec, execDrw, execLoadRegs, State.mapRndStShift_index, State.mapRndStShift_loadBytes,
      State.mapRndStShift_setVList]
    cases s.loadBytes _ _ <;> exact ⟨_, rfl, rfl⟩
  case ldB x | storeRegs x =>
    simp only [exec, execLdB, execStoreRegs, State.mapRndStShift_getV, State.mapRndStShift_getVList,
      State.mapRndStShift_index, State.mapRndStShift_storeBytes]
    cases s.storeBytes _ _ <;> exact ⟨_, rfl, rfl⟩
  case skp x | sknp x =>
    simp only [exec, execSkp, execSknp, State.mapRndStShift_getV, keyLevel_mapRndStShift]
    cases keyLevel s _ <;> exact ⟨_, rfl, rfl⟩
  case ldVxK x =>
    simp only [exec, execLdVxK, pressed_mapRndStShift]
    cases lowestKey _ <;> exact ⟨_, rfl, rfl⟩
  case ldF x =>
    simp only [exec, execLdF, State.mapRndStShift_getV]
    cases glyphAddress _ <;> exact ⟨_, rfl, rfl⟩
  all_goals exact ⟨_, rfl, rfl⟩

/-- `exec_mapRndStShift` of a known next state. -/
theorem exec_mapRndStShift_of_next {s t : State} (h : exec i s = .next t) :
    exec i (s.mapRndStShift fr fs fc) = .next (t.mapRndStShift fr fs fc) := by
  obtain ⟨u, hu, hmap⟩ := exec_mapRndStShift hr hs hc s
  rw [h] at hu; cases hu
  exact hmap

end

/-- Settles O49: the random byte alone is another, and the instruction is not `RND`. -/
theorem randomReachesOnlyRnd : Obligations.RandomReachesOnlyRnd := by
  intro i s t b hi h
  have hr : ¬ ∃ x kk, i = .rnd x kk := fun ⟨x, kk, e⟩ => hi x kk e
  exact exec_mapRndStShift_of_next (fr := fun _ => b) (fs := id) (fc := id) (absurd · hr) (fun _ => rfl)
    (fun _ => rfl) h

/-- Settles O50: `ST` alone or the convention alone is another, and `LD ST,Vx` overwrites the `ST` that differs. -/
theorem soundTimerAndConventionReachNothingElse : Obligations.SoundTimerAndConventionReachNothingElse := by
  refine ⟨fun i s t b hi h => ?_, fun x s t b h => h, fun i s t c hi h => ?_⟩
  · have hs : ¬ ∃ x, i = .ldStVx x := fun ⟨x, e⟩ => hi x e
    exact exec_mapRndStShift_of_next (fr := id) (fs := fun _ => b) (fc := id) (fun _ => rfl)
      (absurd · hs) (fun _ => rfl) h
  · have hc : ¬ ∃ x y, i = .shr x y ∨ i = .shl x y := fun ⟨x, y, e⟩ => e.elim (hi x y).1 (hi x y).2
    exact exec_mapRndStShift_of_next (fr := id) (fs := id) (fc := fun _ => c) (fun _ => rfl) (fun _ => rfl)
      (absurd · hc) h

/-! ## The random byte and the timers -/

/-- Settles O18: the bits of the result are those of the mask and this cycle's byte, written to the one destination. -/
theorem randomByteMasked : Obligations.RandomByteMasked := by
  intro x kk s
  obtain ⟨hx, hframe⟩ := s.setV_advance_spec x (s.rnd &&& kk)
  exact ⟨decodeWord_of_encode_eq (encXkk_eq_wordXkk 12 x kk) rfl, _, rfl,
    fun k _ => by rw [hx, BitVec.getLsbD_and], hframe⟩

/-- Settles O19: each is one write, of a register or of a timer, and the advance. -/
theorem timerAccess : Obligations.TimerAccess := fun x s =>
  ⟨⟨decodeWord_of_encode_eq (encXkk_eq_wordXkk 15 x 0x07) rfl, _, rfl, s.setV_advance_spec x s.dt⟩,
    ⟨decodeWord_of_encode_eq (encXkk_eq_wordXkk 15 x 0x15) rfl, _, rfl, rfl, rfl, rfl, fun _ => rfl⟩,
    ⟨decodeWord_of_encode_eq (encXkk_eq_wordXkk 15 x 0x18) rfl, _, rfl, rfl, rfl, rfl, fun _ => rfl⟩⟩

end Sys2Proof.Machine
end

section
/-! PROOFS. The index register and the data accesses at `I` (spec/44_index_memory.md R130 to R136): each instruction with a
range check answers on both sides of it, and a block store or load is read back byte by byte. -/

namespace Sys2Proof.Machine

/-! ## Both sides of a range check -/

/-- An instruction that runs up to a bound and takes one fault above it (R49, R132): what it does on each side, the fault
recording the instruction's own word. -/
theorem exec_on_each_side {i : Instr} {s t : State} {cause : FaultCause} {op : Word} {a b : Nat} (hop : encode i = op)
    (h : (a ≤ b ∧ exec i s = .next t) ∨ (b < a ∧ exec i s = .next (s.raise cause (encode i)))) :
    (a ≤ b → exec i s = .next t) ∧ (b < a → ∃ u, exec i s = .next u ∧ FaultTaken s cause op u) := by
  subst hop
  rcases h with ⟨hle, h⟩ | ⟨hlt, h⟩
  · exact ⟨fun _ => h, fun hlt => absurd hle (Nat.not_le.mpr hlt)⟩
  · exact ⟨fun hle => absurd hle (Nat.not_le.mpr hlt), fun _ => ⟨_, h, State.raise_faultTaken ..⟩⟩

/-! ## Operands as numbers -/

/-- The sum of `I` and a byte as a number (R131). -/
theorem add_zext16_toNat (a : Addr) (b : Byte) : (a + zext16 b).toNat = (a.toNat + b.toNat) % 65536 := by
  rw [BitVec.toNat_add, zext16, BitVec.toNat_setWidth_of_le (by decide)]

/-- The digits of a byte as numbers: each fits in the byte that holds it (R133). -/
theorem bcdDigits_getD_toNat (b : Byte) :
    ((bcdDigits b).getD 0 0#8).toNat = b.toNat / 100 ∧ ((bcdDigits b).getD 1 0#8).toNat = b.toNat / 10 % 10 ∧
      ((bcdDigits b).getD 2 0#8).toNat = b.toNat % 10 := by
  have hlt := b.isLt
  refine ⟨?_, ?_, ?_⟩ <;> exact (BitVec.toNat_ofNat ..).trans (Nat.mod_eq_of_lt (by omega))

/-! ## Block stores and loads -/

/-- A block store writes the `k` bytes at `base` and nothing else but the pc (R42, R49). -/
theorem State.store_onlyBytesAndPc {s : State} (hm : s.mem.wf = true) {base k : Nat} {bs : List Byte}
    (hk : bs.length = k) (hb : base + k ≤ 4096) :
    OnlyBytesAndPc base k s { s with mem := s.mem.writeList base bs }.advance := by
  subst hk
  exact ⟨rfl, fun _ => Memory.read_writeList_outside hm hb⟩

/-- The stored digits of a byte are read back as hundreds, tens and ones (R133). -/
theorem Memory.read_writeList_bcdDigits {m : Memory} (hm : m.wf = true) {base : Nat} (hb : base ≤ 4093) (b : Byte) :
    ((m.writeList base (bcdDigits b)).read base).toNat = b.toNat / 100 ∧
      ((m.writeList base (bcdDigits b)).read (base + 1)).toNat = b.toNat / 10 % 10 ∧
      ((m.writeList base (bcdDigits b)).read (base + 2)).toNat = b.toNat % 10 := by
  have hfits : base + (bcdDigits b).length ≤ 4096 := by rw [bcdDigits_length]; omega
  have hread : ∀ j < 3, (m.writeList base (bcdDigits b)).read (base + j) = (bcdDigits b).getD j 0#8 :=
    fun _ => Memory.read_writeList_at hm hfits
  rw [show (m.writeList base (bcdDigits b)).read base = _ from hread 0 (by decide), hread 1 (by decide),
    hread 2 (by decide)]
  exact bcdDigits_getD_toNat b

section
variable (s : State) (x : RegIdx) (base : Nat)

/-- Register `r` of a loaded block is the byte at `base + r` (R135). -/
theorem State.getV_setVList_readList_of_le {r : RegIdx} (hr : r.val ≤ x.val) :
    (s.setVList 0 (s.mem.readList base (x.val + 1))).getV r = s.mem.read (base + r.val) := by
  rw [State.getV_setVList, Memory.readList_length, if_pos (by omega), Nat.sub_zero, Memory.readList_getD _ _ (by omega)]
  rw [Memory.readList_length]; omega

/-- A register above the loaded block is as before (R135). -/
theorem State.getV_setVList_readList_of_lt {r : RegIdx} (hr : x.val < r.val) :
    (s.setVList 0 (s.mem.readList base (x.val + 1))).getV r = s.getV r := by
  rw [State.getV_setVList, Memory.readList_length, if_neg (by omega)]
  rw [Memory.readList_length]; omega

end

/-- A block load writes registers and nothing else but the pc (R135). -/
theorem State.setVList_advance_frame (s : State) (start : Nat) (bs : List Byte) :
    (s.setVList start bs).advance.pc = s.pc + 2 ∧ OnlyRegsAndPc s (s.setVList start bs).advance := by
  rw [State.setVList_eq]
  exact ⟨rfl, rfl, fun _ => rfl⟩

/-! ## The statements of the family -/

/-- Settles O22: the three bytes stored are the digits, and they are all that the store writes. -/
theorem storeDecimalDigits : Obligations.StoreDecimalDigits := by
  intro x s
  have hword : encode (.ldB x) = wordXkk 15 x 0x33 := encXkk_eq_wordXkk 15 x 0x33
  obtain ⟨hrun, hfault⟩ := exec_on_each_side hword (exec_ldB_cases x s)
  refine ⟨decodeWord_of_encode_eq hword rfl, fun hm hle => ?_, hfault⟩
  obtain ⟨hhundreds, htens, hones⟩ := Memory.read_writeList_bcdDigits hm hle (s.getV x)
  exact ⟨_, hrun hle, hhundreds, htens, hones, rfl,
    State.store_onlyBytesAndPc hm (bcdDigits_length _) (by omega)⟩

/-- Settles O23: the registers stored are read back, and they are all that the store writes. -/
theorem storeRegisterBlock : Obligations.StoreRegisterBlock := by
  intro x s
  have hword : encode (.storeRegs x) = wordXkk 15 x 0x55 := encXkk_eq_wordXkk 15 x 0x55
  obtain ⟨hrun, hfault⟩ := exec_on_each_side hword (exec_storeRegs_cases x s)
  refine ⟨decodeWord_of_encode_eq hword rfl, fun hm hle => ?_, hfault⟩
  exact ⟨_, hrun hle, fun _ => read_writeList_getVList hm hle, rfl,
    State.store_onlyBytesAndPc hm (s.getVList_length x) (by omega)⟩

/-- Settles O24: the bytes loaded go to the registers up to `x`, one each. -/
theorem loadRegisterBlock : Obligations.LoadRegisterBlock := by
  intro x s
  have hword : encode (.loadRegs x) = wordXkk 15 x 0x65 := encXkk_eq_wordXkk 15 x 0x65
  obtain ⟨hrun, hfault⟩ := exec_on_each_side hword (exec_loadRegs_cases x s)
  refine ⟨decodeWord_of_encode_eq hword rfl, fun hle => ?_, hfault⟩
  exact ⟨_, hrun hle, fun _ => s.getV_setVList_readList_of_le x _, fun _ => s.getV_setVList_readList_of_lt x _,
    s.setVList_advance_frame 0 _⟩

/-- Settles O20: each is one write of `I` and the advance. -/
theorem indexLoadAndAdd : Obligations.IndexLoadAndAdd :=
  ⟨fun nnn _ =>
      ⟨decodeWord_of_encode_eq (encNnn_eq_wordNnn 10 nnn) rfl, _, rfl, target_toNat nnn, rfl, rfl, fun _ => rfl⟩,
    fun x s =>
      ⟨decodeWord_of_encode_eq (encXkk_eq_wordXkk 15 x 0x1E) rfl, _, rfl, add_zext16_toNat s.index (s.getV x), rfl, rfl,
        fun _ => rfl⟩⟩

/-- Settles O21: five times a digit fits in `I`, so it is not reduced. -/
theorem glyphAddressOfDigit : Obligations.GlyphAddressOfDigit := by
  intro x s
  have hword : encode (.ldF x) = wordXkk 15 x 0x29 := encXkk_eq_wordXkk 15 x 0x29
  obtain ⟨hrun, hfault⟩ := exec_on_each_side hword (exec_ldF_cases x s)
  refine ⟨decodeWord_of_encode_eq hword rfl, fun hle => ?_, hfault⟩
  have hfits : 5 * (s.getV x).toNat < 2 ^ 16 := by omega
  exact ⟨_, hrun hle, (BitVec.toNat_ofNat ..).trans (Nat.mod_eq_of_lt hfits), rfl, rfl, fun _ => rfl⟩

end Sys2Proof.Machine
end

section
/-! PROOFS. The framebuffer instructions (spec/45_display.md R140 to R142): `CLS` blanks the screen, `DRW` toggles the
pixels its sprite covers, and the same draw again toggles them back. -/

namespace Sys2Proof.Machine

/-! ## The state after a draw -/

/-- The next state of `DRW Vx,Vy,n` where its sprite is in range (R141). -/
def drawNext (x y : RegIdx) (n : Fin 16) (s : State) : State :=
  (({ s with fb := (drawn x y n s).1 }).setV regF (flagByte (drawn x y n s).2)).advance

/-- No pixel stands twice in the sprite of a `DRW`: it has at most 15 rows (R141). -/
theorem spritePixels_readList_nodup (vx vy : Nat) (m : Memory) (base : Nat) (n : Fin 16) :
    (spritePixels vx vy 0 (m.readList base n.val)).Nodup :=
  spritePixels_nodup vx vy 0 _ (by rw [Memory.readList_length]; omega)

theorem flagByte_eq_one_iff (b : Bool) : flagByte b = 1#8 ↔ b = true := by cases b <;> decide

section
variable {x y : RegIdx} {n : Fin 16} {s : State}

/-- A pixel the sprite covers is toggled (R141, R142). -/
theorem drawNext_pixel_of_covers {r : Fin 32} {q : Fin 64} (h : SpriteCovers s x y n r q) :
    (drawNext x y n s).pixel r q = !s.pixel r q := by
  obtain ⟨hpixel, -⟩ := togglePixels_spec _ (spritePixels_readList_nodup _ _ _ _ n) s.fb false
  rw [spriteCovers_iff] at h
  exact (hpixel r q).trans (by rw [decide_eq_true h, Bool.xor_true]; rfl)

/-- A pixel the sprite does not cover is as before (R141). -/
theorem drawNext_pixel_of_not_covers {r : Fin 32} {q : Fin 64} (h : ¬ SpriteCovers s x y n r q) :
    (drawNext x y n s).pixel r q = s.pixel r q := by
  obtain ⟨hpixel, -⟩ := togglePixels_spec _ (spritePixels_readList_nodup _ _ _ _ n) s.fb false
  rw [spriteCovers_iff] at h
  exact (hpixel r q).trans (by rw [decide_eq_false h, Bool.xor_false]; rfl)

/-- A draw collides exactly where the sprite covers a pixel that was set (R141). -/
theorem drawn_collision_iff :
    (drawn x y n s).2 = true ↔ ∃ r q, SpriteCovers s x y n r q ∧ s.pixel r q = true := by
  obtain ⟨-, hflag⟩ := togglePixels_spec _ (spritePixels_readList_nodup _ _ _ _ n) s.fb false
  simp only [spriteCovers_iff]
  exact hflag.trans (by simp [State.pixel])

/-- `VF` is the collision flag, whatever `x` and `y` are: it is written last (R141). -/
theorem drawNext_getV_regF : (drawNext x y n s).getV 15 = flagByte (drawn x y n s).2 :=
  State.getV_setV_self ..

/-- A draw writes no register but `VF` (R141). -/
theorem drawNext_regsSameBut : RegsSameBut 15 s (drawNext x y n s) :=
  fun r hr => (State.getV_setV _ regF _ r).trans (if_neg hr)

/-- A draw leaves 1 in `VF` exactly where the sprite covers a pixel that was set (R141). -/
theorem drawNext_collision_iff :
    (drawNext x y n s).getV 15 = 1#8 ↔ ∃ r q, SpriteCovers s x y n r q ∧ s.pixel r q = true := by
  rw [drawNext_getV_regF, flagByte_eq_one_iff, drawn_collision_iff]

/-- A draw leaves 0 in `VF` where every pixel the sprite covers was clear (R141). -/
theorem drawNext_no_collision (h : ¬ ∃ r q, SpriteCovers s x y n r q ∧ s.pixel r q = true) :
    (drawNext x y n s).getV 15 = 0#8 := by
  rw [← drawn_collision_iff, Bool.not_eq_true] at h
  rw [drawNext_getV_regF, h]; rfl

/-! ## Both sides of the range check -/

/-- A sprite in range is drawn; one of no rows always is (R141, R49). -/
theorem exec_drw_of_inRange (h : n.val = 0 ∨ s.index.toNat + n.val - 1 ≤ 4095) :
    exec (.drw x y n) s = .next (drawNext x y n s) := by
  rcases exec_drw_cases x y n s with ⟨-, hexec⟩ | ⟨hout, -⟩
  · exact hexec
  · omega

/-- A sprite out of range is not drawn (R169). -/
theorem exec_drw_of_outOfRange (hn : n.val ≠ 0) (h : 4095 < s.index.toNat + n.val - 1) :
    exec (.drw x y n) s = .next (s.raise .memoryOutOfRange (encode (.drw x y n))) := by
  rcases exec_drw_cases x y n s with ⟨hin, -⟩ | ⟨-, hexec⟩
  · omega
  · exact hexec

/-! ## The same draw again -/

/-- A draw that keeps the two registers of its position keeps the pixels its sprite covers: it writes neither `I` nor
memory. -/
theorem spriteCovers_drawNext_iff (hx : (drawNext x y n s).getV x = s.getV x)
    (hy : (drawNext x y n s).getV y = s.getV y) (r : Fin 32) (q : Fin 64) :
    SpriteCovers (drawNext x y n s) x y n r q ↔ SpriteCovers s x y n r q := by
  rw [SpriteCovers, hx, hy]; rfl

end

/-! ## The statements of the family -/

/-- Settles O27: a sprite in range is drawn, with the flag as the last write; one out of range records the instruction's
own word. -/
theorem drawTogglesSprite : Obligations.DrawTogglesSprite := by
  intro x y n s
  have hword : encode (.drw x y n) = wordXyd 13 x y n.val := encXyd_eq_wordXyd 13 x y (nibble n)
  refine ⟨decodeWord_of_encode_eq hword rfl, fun hin => ?_, fun hn hout => ?_⟩
  · exact ⟨_, exec_drw_of_inRange hin, fun _ _ => drawNext_pixel_of_covers, fun _ _ => drawNext_pixel_of_not_covers,
      drawNext_collision_iff.mpr, drawNext_no_collision, drawNext_regsSameBut, rfl, rfl, fun _ => rfl⟩
  · exact ⟨_, exec_drw_of_outOfRange hn hout, hword ▸ State.raise_faultTaken ..⟩

/-- Settles O28: the second draw covers the same pixels, so it toggles each one back, and it meets a set pixel where the
first draw set one. -/
theorem drawTwiceRestoresScreen : Obligations.DrawTwiceRestoresScreen := by
  intro x y n s t hin hexec hx hy
  rw [exec_drw_of_inRange hin] at hexec
  cases hexec
  have hsame := spriteCovers_drawNext_iff hx hy
  refine ⟨_, exec_drw_of_inRange hin, fun r q => ?_, ?_⟩
  · by_cases hc : SpriteCovers s x y n r q
    · rw [drawNext_pixel_of_covers ((hsame r q).mpr hc), drawNext_pixel_of_covers hc, Bool.not_not]
    · rw [drawNext_pixel_of_not_covers (mt (hsame r q).mp hc), drawNext_pixel_of_not_covers hc]
  · have hset (r : Fin 32) (q : Fin 64) :
        SpriteCovers (drawNext x y n s) x y n r q ∧ (drawNext x y n s).pixel r q = true ↔
          SpriteCovers s x y n r q ∧ s.pixel r q = false := by
      rw [hsame r q]
      exact and_congr_right fun hc => by rw [drawNext_pixel_of_covers hc, Bool.not_eq_true']
    rw [drawNext_collision_iff]
    exact exists_congr fun r => exists_congr (hset r)

/-- Settles O26: the blank screen is all that `CLS` writes but the pc. -/
theorem clearScreen : Obligations.ClearScreen :=
  ⟨decodeWord_encode (i := .cls) rfl, fun _ => ⟨_, rfl, Framebuffer.pixel_blank, rfl, rfl, fun _ => rfl⟩⟩

end Sys2Proof.Machine
end

section
/-! PROOFS. The keypad instructions (spec/46_input.md R150 to R152): the two skips on both sides of the key check, and the
wait for the lowest key newly pressed. -/

namespace Sys2Proof.Machine

/-! ## The press event key by key -/

section
variable {s : State} {k : Fin 16}

/-- A key is pressed when it is down now and was up at the previous sample (R20). -/
theorem pressed_getLsbD_eq_true_iff :
    (pressed s).getLsbD k = true ↔ s.keys.getLsbD k = true ∧ s.keysPrev.getLsbD k = false := by
  rw [pressed_getLsbD, Bool.and_eq_true, Bool.not_eq_true']

theorem pressed_getLsbD_eq_false_iff :
    (pressed s).getLsbD k = false ↔ s.keys.getLsbD k = false ∨ s.keysPrev.getLsbD k = true := by
  rw [pressed_getLsbD, Bool.and_eq_false_iff, Bool.not_eq_false']

/-- With a lowest pressed key, `LD Vx,K` takes that key (R152): of two lowest keys, neither is below the other. -/
theorem exec_ldVxK_of_lowest (hk : (pressed s).getLsbD k = true)
    (hlow : ∀ j : Fin 16, j < k → (pressed s).getLsbD j = false) (x : RegIdx) :
    exec (.ldVxK x) s = .next (s.setV x (BitVec.ofNat 8 k.val)).advance := by
  rcases exec_ldVxK_cases x s with ⟨k', hk', hlow', h⟩ | ⟨hnone, -⟩
  · have hle : k ≤ k' := not_lt.mp fun hlt => Bool.eq_false_iff.mp (hlow k' hlt) hk'
    have hge : k' ≤ k := not_lt.mp fun hlt => Bool.eq_false_iff.mp (hlow' k hlt) hk
    rw [le_antisymm hle hge]; exact h
  · exact absurd hnone (pressed_ne_zero hk)

end

/-- With no pressed key, `LD Vx,K` waits (R152). -/
theorem exec_ldVxK_of_no_press {s : State} (hnone : ∀ k : Fin 16, (pressed s).getLsbD k = false) (x : RegIdx) :
    exec (.ldVxK x) s = .next s := by
  rcases exec_ldVxK_cases x s with ⟨k, hk, -, -⟩ | ⟨-, h⟩
  · exact absurd hk (Bool.eq_false_iff.mp (hnone k))
  · exact h

/-! ## The statements of the family -/

/-- Settles O30: the key taken is the lowest of the press event, written to the one destination; with none, the state is
its own next. -/
theorem keyWait : Obligations.KeyWait := by
  intro x s
  refine ⟨decodeWord_of_encode_eq (encXkk_eq_wordXkk 15 x 0x0A) rfl, fun k hk hlow => ?_, fun hnone => ?_⟩
  · have hexec := exec_ldVxK_of_lowest (pressed_getLsbD_eq_true_iff.mpr hk)
      (fun j hj => pressed_getLsbD_eq_false_iff.mpr (hlow j hj)) x
    have hfits : k.val < 2 ^ 8 := by omega
    obtain ⟨hx, hframe⟩ := s.setV_advance_spec x (BitVec.ofNat 8 k.val)
    exact ⟨_, hexec, by rw [hx, BitVec.toNat_ofNat, Nat.mod_eq_of_lt hfits], hframe⟩
  · exact exec_ldVxK_of_no_press (fun k => pressed_getLsbD_eq_false_iff.mpr (hnone k)) x

/-- Settles O29: the two skips take opposite levels of the same key, and above 15 each records its own word. -/
theorem keySkips : Obligations.KeySkips := by
  intro x s
  have hskp : encode (.skp x) = wordXkk 14 x 0x9E := encXkk_eq_wordXkk 14 x 0x9E
  have hsknp : encode (.sknp x) = wordXkk 14 x 0xA1 := encXkk_eq_wordXkk 14 x 0xA1
  obtain ⟨hskp_run, hskp_fault⟩ := exec_on_each_side hskp (exec_skp_cases x s)
  obtain ⟨hsknp_run, hsknp_fault⟩ := exec_on_each_side hsknp (exec_sknp_cases x s)
  have hup : (!s.keys.getLsbD (s.getV x).toNat) = true ↔ ¬ s.keys.getLsbD (s.getV x).toNat = true := by
    rw [Bool.not_eq_true', Bool.not_eq_true]
  exact ⟨decodeWord_of_encode_eq hskp rfl, decodeWord_of_encode_eq hsknp rfl,
    fun hle => ⟨exists_next_of_skipIf (hskp_run hle) Iff.rfl, exists_next_of_skipIf_not (hsknp_run hle) hup⟩,
    fun hlt => ⟨hskp_fault hlt, hsknp_fault hlt⟩⟩

end Sys2Proof.Machine
end

section
/-! PROOFS. Halts and faults (spec/60_exceptions.md R160 to R162, R171, R173, R174, R185): a halted machine, a stop, and
the table of faults row by row. -/

namespace Sys2Proof.Machine

/-! ## A halted machine and a stop -/

/-- A halted machine runs no cycle (R25, R185). -/
theorem step_of_halted {s : State} (h : s.halted = true) : step s = .next s := by
  rw [step, cycle, if_pos h]

/-- Settles O37, by induction on the number of steps. -/
theorem haltedForEver : Obligations.HaltedForEver := by
  intro k s h
  induction k with
  | zero => rfl
  | succ k ih =>
    have hstep : core.step s = .next s := step_of_halted h
    simp only [Host.Core.run, hstep]
    exact ih

/-- Settles O36: the stop comes before every other part of the cycle. -/
theorem stopHaltsOnly : Obligations.StopHaltsOnly := by
  intro s hh hs
  rw [step, cycle, if_neg (Bool.eq_false_iff.mp hh), if_pos hs]
  rfl

/-- Settles O38: of the ways a cycle ends, the clock that goes backwards is the one that answers no next state. -/
theorem onlyBackwardClockRefused : Obligations.OnlyBackwardClockRefused := by
  refine fun s => ⟨fun h => ?_, fun ⟨hh, hs, hc⟩ => by simp [step, cycle, hh, hs, hc]⟩
  rcases step_cases s with ⟨-, g⟩ | ⟨-, -, g⟩ | ⟨hh, hs, hback, -⟩ | ⟨-, -, hle, -⟩
  · rw [h] at g; cases g
  · rw [h] at g; cases g
  · exact ⟨hh, hs, hback⟩
  · exact absurd (step_refused h).2 (Nat.not_lt.mpr hle)

/-! ## The table of faults -/

/-- Settles O40: an instruction raises one fault on the state before it, or it does not write the record. -/
theorem faultsArePrecise : Obligations.FaultsArePrecise := by
  intro i s t hrun h
  rcases exec_next_outcome h with ⟨cause, hcause, rfl⟩ | ⟨-, hframe⟩
  · exact ⟨fun _ => ⟨cause, hcause, State.raise_faultTaken ..⟩, fun hgo => Bool.noConfusion hgo⟩
  · obtain ⟨hhalt, hrecord⟩ := hframe.keeps_record
    exact ⟨fun hstop => Bool.noConfusion (hstop.symm.trans (hhalt.trans hrun)), fun _ => hrecord⟩

/-- When instruction `i` faults on `s`, by the table of R160. -/
def FaultsOn (i : Instr) (s : State) : Prop :=
  match i with
  | .call _ => s.sp.val = 16
  | .ret => s.sp.val = 0
  | .ldF x | .skp x | .sknp x => 15 < (s.getV x).toNat
  | .ldB _ => 4095 < s.index.toNat + 2
  | .storeRegs x | .loadRegs x => 4095 < s.index.toNat + x.val
  | .drw _ _ n => n.val ≠ 0 ∧ 4095 < s.index.toNat + n.val - 1
  | _ => False

/-- The one cause with which an instruction can fault, by the table of R160. -/
def tableCause : Instr → FaultCause
  | .call _ => .stackOverflow
  | .ret => .stackUnderflow
  | .ldF _ => .invalidGlyphIndex
  | .skp _ | .sknp _ => .invalidKeyIndex
  | .ldB _ | .storeRegs _ | .loadRegs _ | .drw _ _ _ => .memoryOutOfRange
  | _ => .none

/-- An instruction takes the fault of its row exactly under the row's condition, and otherwise does not write `halted`. -/
theorem exec_faultsOn_cases (i : Instr) (s : State) :
    (FaultsOn i s ∧ exec i s = .next (s.raise (tableCause i) (encode i))) ∨
      (¬ FaultsOn i s ∧ ∃ t, exec i s = .next t ∧ t.halted = s.halted) := by
  cases i
  case call nnn =>
    rcases exec_call_cases nnn s with ⟨hk, h⟩ | ⟨hk, h⟩
    exacts [.inr ⟨Nat.ne_of_lt hk, _, h, rfl⟩, .inl ⟨hk, h⟩]
  case ret =>
    rcases exec_ret_cases s with ⟨k, hk, h⟩ | ⟨hk, h⟩
    exacts [.inr ⟨by rw [FaultsOn]; omega, _, h, rfl⟩, .inl ⟨hk, h⟩]
  case ldF x =>
    rcases exec_ldF_cases x s with ⟨hk, h⟩ | ⟨hk, h⟩
    exacts [.inr ⟨Nat.not_lt.mpr hk, _, h, rfl⟩, .inl ⟨hk, h⟩]
  case skp x =>
    rcases exec_skp_cases x s with ⟨hk, h⟩ | ⟨hk, h⟩
    exacts [.inr ⟨Nat.not_lt.mpr hk, _, h, rfl⟩, .inl ⟨hk, h⟩]
  case sknp x =>
    rcases exec_sknp_cases x s with ⟨hk, h⟩ | ⟨hk, h⟩
    exacts [.inr ⟨Nat.not_lt.mpr hk, _, h, rfl⟩, .inl ⟨hk, h⟩]
  case ldB x =>
    rcases exec_ldB_cases x s with ⟨hk, h⟩ | ⟨hk, h⟩
    exacts [.inr ⟨by rw [FaultsOn]; omega, _, h, rfl⟩, .inl ⟨by rw [FaultsOn]; omega, h⟩]
  case storeRegs x =>
    rcases exec_storeRegs_cases x s with ⟨hk, h⟩ | ⟨hk, h⟩
    exacts [.inr ⟨Nat.not_lt.mpr hk, _, h, rfl⟩, .inl ⟨hk, h⟩]
  case loadRegs x =>
    rcases exec_loadRegs_cases x s with ⟨hk, h⟩ | ⟨hk, h⟩
    exacts [.inr ⟨Nat.not_lt.mpr hk, _, h, by rw [State.setVList_eq]; rfl⟩, .inl ⟨hk, h⟩]
  case drw x y n =>
    rcases exec_drw_cases x y n s with ⟨hk, h⟩ | ⟨hk, h⟩
    exacts [.inr ⟨by rw [FaultsOn]; omega, _, h, rfl⟩, .inl ⟨by rw [FaultsOn]; omega, h⟩]
  case ldVxK x =>
    rcases exec_ldVxK_cases x s with ⟨_, _, _, h⟩ | ⟨_, h⟩
    exacts [.inr ⟨id, _, h, rfl⟩, .inr ⟨id, _, h, rfl⟩]
  all_goals exact .inr ⟨id, _, rfl, rfl⟩

/-- The condition column of the table, listed by condition. -/
theorem faultsOn_iff (i : Instr) (s : State) :
    FaultsOn i s ↔
      (∃ nnn, i = .call nnn ∧ s.sp.val = 16) ∨
      (i = .ret ∧ s.sp.val = 0) ∨
      (∃ x, (i = .ldF x ∨ i = .skp x ∨ i = .sknp x) ∧ 15 < (s.getV x).toNat) ∨
      (∃ x, i = .ldB x ∧ 4095 < s.index.toNat + 2) ∨
      (∃ x, (i = .storeRegs x ∨ i = .loadRegs x) ∧ 4095 < s.index.toNat + x.val) ∨
      (∃ x y n, i = .drw x y n ∧ n.val ≠ 0 ∧ 4095 < s.index.toNat + n.val - 1) := by
  cases i <;> simp [FaultsOn]

/-- Settles O41, one row of the table for each instruction. -/
theorem faultsAreThoseOfTheTable : Obligations.FaultsAreThoseOfTheTable := by
  intro i s t hrun h
  rw [← faultsOn_iff]
  rcases exec_faultsOn_cases i s with ⟨hf, g⟩ | ⟨hf, u, g, hhalt⟩ <;> rw [h] at g <;> cases g
  · refine ⟨iff_of_true rfl hf, fun _ => ?_⟩
    cases i
    case call | ret | ldF | skp | sknp | ldB | storeRegs | loadRegs | drw => rfl
    all_goals exact hf
  · have hgo : ¬ t.halted = true := Bool.eq_false_iff.mp (hhalt.trans hrun)
    exact ⟨iff_of_false hgo hf, fun hstop => absurd hstop hgo⟩

end Sys2Proof.Machine
end

section
/-! PROOFS. A cycle that reaches its fetch, seen from outside the instructions: the keypad sampler, the timer unit, the
parameters and the trace (spec/60_exceptions.md R176 to R181, spec/70_reset_and_hazards.md R194). -/

namespace Sys2Proof.Machine

/-- A cycle that reaches its fetch takes a fault of the fetch or the decode after the timers and the sample, or executes the
fetched instruction there (R25). -/
theorem step_next_of_running {s t : State} (hr : s.Running) (h : step s = .next t) :
    (∃ c op, t = s.beforeFetch.raise c op) ∨ ∃ i, s.Fetches i ∧ exec i s.beforeFetch = .next t := by
  rw [step_of_running hr, fetchDecodeExecute, State.beforeFetch_fetch] at h
  split at h
  · cases h; exact .inl ⟨_, _, rfl⟩
  · next op hop =>
    split at h
    · cases h; exact .inl ⟨_, _, rfl⟩
    · next i hd => exact .inr ⟨i, ⟨op, hop, hd⟩, h⟩

/-! ## The keypad sampler -/

/-- No instruction writes the sample: the keys after a cycle are those it sampled (R20, R178). -/
theorem step_keys_of_running {s t : State} (hr : s.Running) (h : step s = .next t) : t.keys = s.beforeFetch.keys := by
  rcases step_next_of_running hr h with ⟨c, op, rfl⟩ | ⟨i, -, hexec⟩
  · rfl
  · exact (exec_keeps hexec).1

/-- Settles O31: a key pressed in one cycle is down in its sample, which is the previous sample of the next cycle. -/
theorem pressLastsOneCycle : Obligations.PressLastsOneCycle := by
  intro s t k hr h hk
  have hdown : t.keys.getLsbD k = true := by
    rw [step_keys_of_running hr h]; exact (pressed_getLsbD_eq_true_iff.mp hk).1
  exact pressed_getLsbD_eq_false_iff.mpr (.inr (by rwa [State.beforeFetch_keysPrev]))

/-! ## The timer unit -/

section
variable {i : Instr} {s t : State} (h : exec i s = .next t)
include h

/-- Only `LD DT,Vx` writes the delay timer (R122). -/
theorem exec_dt_writers : t.dt = s.dt ∨ ∃ x, i = .ldDtVx x := by
  rcases exec_next_outcome h with ⟨c, -, rfl⟩ | ⟨-, hf⟩
  · exact .inl rfl
  · cases i
    case ldDtVx x => exact .inr ⟨x, rfl⟩
    all_goals exact .inl (congrArg State.dt hf :)

/-- Only `LD ST,Vx` writes the sound timer (R123). -/
theorem exec_st_writers : t.st = s.st ∨ ∃ x, i = .ldStVx x := by
  rcases exec_next_outcome h with ⟨c, -, rfl⟩ | ⟨-, hf⟩
  · exact .inl rfl
  · cases i
    case ldStVx x => exact .inr ⟨x, rfl⟩
    all_goals exact .inl (congrArg State.st hf :)

end

/-- After a cycle that reaches its fetch, `lastUpdate` and each timer the fetched instruction does not load are as the timer
unit left them (R176, R177). -/
theorem step_timers_of_running {s t : State} (hr : s.Running) (h : step s = .next t) :
    t.lastUpdate = s.beforeFetch.lastUpdate ∧
      ((¬ ∃ x, s.Fetches (.ldDtVx x)) → t.dt = s.beforeFetch.dt) ∧
      ((¬ ∃ x, s.Fetches (.ldStVx x)) → t.st = s.beforeFetch.st) := by
  rcases step_next_of_running hr h with ⟨c, op, rfl⟩ | ⟨i, hi, hexec⟩
  · exact ⟨rfl, fun _ => rfl, fun _ => rfl⟩
  · obtain ⟨-, -, hlast, -⟩ := exec_keeps hexec
    refine ⟨hlast, fun hno => (exec_dt_writers hexec).resolve_right ?_,
      fun hno => (exec_st_writers hexec).resolve_right ?_⟩ <;>
    · rintro ⟨x, rfl⟩
      exact hno ⟨x, hi⟩

/-- Settles O47, one clause on each side of the gate. -/
theorem timersOnlyTickOrLoad : Obligations.TimersOnlyTickOrLoad := by
  intro s t hr h
  obtain ⟨hlast, hdt, hst⟩ := step_timers_of_running hr h
  rw [State.beforeFetch_lastUpdate] at hlast
  rw [State.beforeFetch_dt] at hdt
  rw [State.beforeFetch_st] at hst
  refine ⟨fun htick => ?_, fun hearly => ?_⟩
  · rw [if_pos htick] at hlast hdt hst
    exact ⟨hlast, fun hno => by rw [hdt hno, countDown_toNat], fun hno => by rw [hst hno, countDown_toNat]⟩
  · have hno : ¬ s.tick := Nat.not_le.mpr hearly
    rw [if_neg hno] at hlast hdt hst
    exact ⟨hlast, hdt, hst⟩

/-! ## The parameters -/

/-- Settles O48: neither the parts of a cycle outside the instructions nor any instruction writes a parameter. -/
theorem parametersNeverChange : Obligations.ParametersNeverChange := by
  intro s t h
  rcases step_next_cases h with (rfl | rfl | ⟨c, op, rfl⟩) | ⟨i, -, hexec⟩
  · exact ⟨rfl, rfl⟩
  · exact ⟨rfl, rfl⟩
  · exact ⟨s.beforeFetch_shiftLegacy, s.beforeFetch_tickPeriod⟩
  · obtain ⟨-, -, -, -, -, -, -, hshift, hperiod⟩ := exec_keeps hexec
    exact ⟨hshift.trans s.beforeFetch_shiftLegacy, hperiod.trans s.beforeFetch_tickPeriod⟩

/-! ## The trace -/

/-- The guard of the trace is that the cycle reaches its fetch. -/
theorem State.running_iff (s : State) : s.Running ↔ ¬ (s.halted || !s.inputsAllowFetch) = true := by
  simp [State.Running, State.inputsAllowFetch]

/-- The trace gives a pair for the cycles that execute an instruction: the pc and the fetched word (R181). -/
theorem tracePair_eq_some_iff {s : State} {pc : Addr} {op : Word} :
    tracePair s = some (pc, op) ↔ s.Running ∧ pc = s.pc ∧ s.fetch = some op ∧ ∃ i, decodeWord op = .ok i := by
  rw [tracePair, State.beforeFetch_fetch]
  by_cases hr : s.Running
  · rw [if_neg (s.running_iff.mp hr)]
    cases s.fetch with
    | none => simp
    | some w =>
      cases hd : decodeWord w with
      | error e =>
        simp only [hd]
        exact iff_of_false nofun fun ⟨_, _, hw, i, hi⟩ => by cases hw; rw [hd] at hi; cases hi
      | ok i =>
        simp only [hd]
        refine ⟨fun h => ?_, fun ⟨_, hpc, hw, _⟩ => ?_⟩
        · cases h; exact ⟨hr, rfl, rfl, i, hd⟩
        · cases hw; rw [hpc]
  · rw [if_pos (not_not.mp (mt s.running_iff.mpr hr))]
    exact iff_of_false nofun fun h => hr h.1

/-- Settles O59: the trace gives a pair exactly for the cycles that execute the instruction of its word. -/
theorem traceIsWhatRuns : Obligations.TraceIsWhatRuns := by
  refine fun s => ⟨fun pc op h => ?_, fun i hr ⟨op, hop, hd⟩ =>
    ⟨op, tracePair_eq_some_iff.mpr ⟨hr, rfl, hop, i, hd⟩, hd⟩⟩
  obtain ⟨hr, hpc, hop, i, hd⟩ := tracePair_eq_some_iff.mp h
  exact ⟨hpc, hop, i, hd, step_of_fetches hr ⟨op, hop, hd⟩⟩

end Sys2Proof.Machine
end

section
/-! PROOFS. What every reset leaves, an over-long image included (spec/60_exceptions.md R167,
spec/70_reset_and_hazards.md R190, R192). -/

namespace Sys2Proof.Machine

/-- The first steps of reset change the reset state in memory, in the parameters and in the clock's reading, which
`lastUpdate` takes with it (R190). -/
theorem State.bootWithoutImage_inv (c : Config) (now : Nat) : (State.bootWithoutImage c now).Inv :=
  have hreset : State.reset.Inv := invariantAtReset
  { hreset with memory := State.bootWithoutImage_wf c now, lastUpdateBound := le_rfl }

/-- Settles O53: the image that fits keeps memory in canonical form, and the one that does not raises a fault. -/
theorem invariantAtBoot : Obligations.InvariantAtBoot := by
  intro c now
  have hinv := State.bootWithoutImage_inv c now
  rcases Nat.lt_or_ge Config.imageMax c.image.length with hlong | hfits
  · rw [State.boot_of_image_too_large hlong]
    exact hinv.raise _ _
  · rw [State.boot_of_image_fits hfits]
    exact { hinv with memory := Memory.writeList_wf hinv.memory (image_fits hfits) }

/-- Settles O55: the fault is raised on the state before an image would be copied, which is what an empty image leaves. -/
theorem overlongImageHaltsReset : Obligations.OverlongImageHaltsReset := by
  intro c now hlong
  rw [State.boot_of_image_too_large hlong, State.boot_of_image_nil (c := { c with image := [] }) rfl]
  have hzero (a : Nat) (ha : 0x200 ≤ a) (_ : a < 4096) : (State.bootWithoutImage c now).mem.read a = 0#8 :=
    State.bootWithoutImage_read_above c now (by omega)
  exact ⟨rfl, rfl, rfl, rfl, hzero, rfl⟩

end Sys2Proof.Machine
end
